-- ==== Sys2Proof/Word.lean ====
section
/-! DEFINITION. The machine's words: the widths of spec/10_state.md R20 and spec/30_encoding.md R91, and nothing
that a test could show wrong. -/

namespace Sys2Proof

/-- Eight bits: a register, a timer, one element of `MEM` (R20). -/
abbrev Byte := BitVec 8

/-- Sixteen bits: an instruction word, `PC`, `I`, a return address (R20, R90). -/
abbrev Word := BitVec 16

/-- Four bits: the family `n0` of a word, or one digit of it (R91). -/
abbrev Nibble := BitVec 4

/-- The 12-bit immediate `NNN` (R91). -/
abbrev Imm12 := BitVec 12

/-- The index of a register `V0` to `VF`, taken from a 4-bit field and so never out of range (R22). -/
abbrev RegIdx := Fin 16

/-- The index of one of the sixteen keys (R29). -/
abbrev KeyIdx := Fin 16

/-- `VF`, the register that is also the flag (R23). -/
abbrev flagReg : RegIdx := 15

end Sys2Proof
end

