-- ==== Sys2Proof/Syntax.lean ====
section
/-! DEFINITION. The closed set of decoder outputs (spec/30_encoding.md R95): the 34 executable kinds and UNKNOWN,
one constructor a row of spec/opcode_table.json, in the table's order. -/

namespace Sys2Proof

/-- One decoded instruction (R95) with its operand fields (R91, R92). -/
inductive Instr where
  /-- CLEAR, `00E0` (R210). -/
  | clear
  /-- RETURN, `00EE` (R143). -/
  | ret
  /-- JUMP, `1NNN` (R141). -/
  | jump (nnn : Imm12)
  /-- CALL, `2NNN` (R142). -/
  | call (nnn : Imm12)
  /-- SKIP_EQ_IMM, `3XNN` (R145). -/
  | skipEqImm (x : RegIdx) (nn : Byte)
  /-- SKIP_NEQ_IMM, `4XNN` (R146). -/
  | skipNeqImm (x : RegIdx) (nn : Byte)
  /-- SKIP_EQ_REG, `5XY0` (R147); the bottom nibble is not examined (R97). -/
  | skipEqReg (x y : RegIdx)
  /-- SKIP_NEQ_REG, `9XY0` (R148); the bottom nibble is not examined (R97). -/
  | skipNeqReg (x y : RegIdx)
  /-- SET_IMM, `6XNN` (R161). -/
  | setImm (x : RegIdx) (nn : Byte)
  /-- ADD_IMM, `7XNN` (R162). -/
  | addImm (x : RegIdx) (nn : Byte)
  /-- SET_REG, `8XY0` (R163). -/
  | setReg (x y : RegIdx)
  /-- OR, `8XY1` (R164). -/
  | orReg (x y : RegIdx)
  /-- AND, `8XY2` (R165). -/
  | andReg (x y : RegIdx)
  /-- XOR, `8XY3` (R166). -/
  | xorReg (x y : RegIdx)
  /-- ADD_REG, `8XY4` (R167). -/
  | addReg (x y : RegIdx)
  /-- SUB_FWD, `8XY5` (R168). -/
  | subFwd (x y : RegIdx)
  /-- SHIFT_RIGHT, `8XY6` (R169); `y` is decoded and ignored. -/
  | shiftRight (x y : RegIdx)
  /-- SUB_REV, `8XY7` (R170). -/
  | subRev (x y : RegIdx)
  /-- SHIFT_LEFT, `8XYE` (R171); `y` is decoded and ignored. -/
  | shiftLeft (x y : RegIdx)
  /-- SET_INDEX, `ANNN` (R190). -/
  | setIndex (nnn : Imm12)
  /-- JUMP_OFFSET, `BNNN` (R144). -/
  | jumpOffset (nnn : Imm12)
  /-- RAND, `CXNN` (R172). -/
  | rand (x : RegIdx) (nn : Byte)
  /-- DRAW, `DXYN` (R211); `n` is the row count 0 to 15. -/
  | draw (x y : RegIdx) (n : Fin 16)
  /-- SKIP_KEY_DOWN, `EX9E` (R230). -/
  | skipKeyDown (x : RegIdx)
  /-- SKIP_KEY_UP, `EXA1` (R231). -/
  | skipKeyUp (x : RegIdx)
  /-- GET_DELAY, `FX07` (R234). -/
  | getDelay (x : RegIdx)
  /-- WAIT_KEY, `FX0A` (R232). -/
  | waitKey (x : RegIdx)
  /-- SET_DELAY, `FX15` (R235). -/
  | setDelay (x : RegIdx)
  /-- SET_SOUND, `FX18` (R236). -/
  | setSound (x : RegIdx)
  /-- ADD_INDEX, `FX1E` (R191). -/
  | addIndex (x : RegIdx)
  /-- SET_INDEX_FONT, `FX29` (R192). -/
  | setIndexFont (x : RegIdx)
  /-- STORE_BCD, `FX33` (R193). -/
  | storeBcd (x : RegIdx)
  /-- DUMP_REGS, `FX55` (R194). -/
  | dumpRegs (x : RegIdx)
  /-- LOAD_REGS, `FX65` (R195). -/
  | loadRegs (x : RegIdx)
  /-- UNKNOWN, every word of R99; it keeps the word, which its event reports (R126). -/
  | unknown (w : Word)
  deriving DecidableEq, Repr

/-- The name of a kind without its operands: the decoder's closed set (R95). -/
inductive Kind where
  | clear | ret | jump | call
  | skipEqImm | skipNeqImm | skipEqReg | skipNeqReg
  | setImm | addImm | setReg | orReg | andReg | xorReg
  | addReg | subFwd | shiftRight | subRev | shiftLeft
  | setIndex | jumpOffset | rand | draw
  | skipKeyDown | skipKeyUp
  | getDelay | waitKey | setDelay | setSound
  | addIndex | setIndexFont | storeBcd | dumpRegs | loadRegs
  | unknown
  deriving DecidableEq, Repr

/-- The kind of an instruction. -/
def Instr.kind : Instr → Kind
  | .clear => .clear
  | .ret => .ret
  | .jump _ => .jump
  | .call _ => .call
  | .skipEqImm _ _ => .skipEqImm
  | .skipNeqImm _ _ => .skipNeqImm
  | .skipEqReg _ _ => .skipEqReg
  | .skipNeqReg _ _ => .skipNeqReg
  | .setImm _ _ => .setImm
  | .addImm _ _ => .addImm
  | .setReg _ _ => .setReg
  | .orReg _ _ => .orReg
  | .andReg _ _ => .andReg
  | .xorReg _ _ => .xorReg
  | .addReg _ _ => .addReg
  | .subFwd _ _ => .subFwd
  | .shiftRight _ _ => .shiftRight
  | .subRev _ _ => .subRev
  | .shiftLeft _ _ => .shiftLeft
  | .setIndex _ => .setIndex
  | .jumpOffset _ => .jumpOffset
  | .rand _ _ => .rand
  | .draw _ _ _ => .draw
  | .skipKeyDown _ => .skipKeyDown
  | .skipKeyUp _ => .skipKeyUp
  | .getDelay _ => .getDelay
  | .waitKey _ => .waitKey
  | .setDelay _ => .setDelay
  | .setSound _ => .setSound
  | .addIndex _ => .addIndex
  | .setIndexFont _ => .setIndexFont
  | .storeBcd _ => .storeBcd
  | .dumpRegs _ => .dumpRegs
  | .loadRegs _ => .loadRegs
  | .unknown _ => .unknown

end Sys2Proof
end

