-- ==== Sys2Proof/WellFormed.lean ====
section
/-! DEFINITION. Which terms of `Instr` some instruction word stands for. Every operand field is held in a type of
its own width, so one check is left: the word an UNKNOWN keeps is one of spec/30_encoding.md R99. -/

namespace Sys2Proof

/-- The words of R99, family by family: those no row of the opcode map matches. -/
def isUnknownWord (w : Word) : Bool :=
  let family := w.toNat / 0x1000
  let low4 := w.toNat % 0x10
  let low8 := w.toNat % 0x100
  if family = 0x0 then
    low4 ∉ [0x0, 0xE]
  else if family = 0x8 then
    low4 ∉ [0x0, 0x1, 0x2, 0x3, 0x4, 0x5, 0x6, 0x7, 0xE]
  else if family = 0xE then
    low8 ∉ [0x9E, 0xA1]
  else if family = 0xF then
    low8 ∉ [0x07, 0x0A, 0x15, 0x18, 0x1E, 0x29, 0x33, 0x55, 0x65]
  else
    false

/-- A term some word decodes to: an UNKNOWN keeps a word of R99, every other kind is unrestricted (R96). -/
def WellFormed : Instr → Bool
  | .unknown w => isUnknownWord w
  | .clear | .ret | .jump _ | .call _ | .skipEqImm _ _ | .skipNeqImm _ _ | .skipEqReg _ _ | .skipNeqReg _ _
  | .setImm _ _ | .addImm _ _ | .setReg _ _ | .orReg _ _ | .andReg _ _ | .xorReg _ _ | .addReg _ _
  | .subFwd _ _ | .shiftRight _ _ | .subRev _ _ | .shiftLeft _ _ | .setIndex _ | .jumpOffset _ | .rand _ _
  | .draw _ _ _ | .skipKeyDown _ | .skipKeyUp _ | .getDelay _ | .waitKey _ | .setDelay _ | .setSound _
  | .addIndex _ | .setIndexFont _ | .storeBcd _ | .dumpRegs _ | .loadRegs _ => true

end Sys2Proof
end

