-- ==== Sys2Proof/Decode.lean ====
section
/-! DEFINITION. The opcode decoder (spec/30_encoding.md R90 to R99), total on every word; the decoder of a byte
sequence, which rejects a short one by name; the encoder, written from the patterns of R96; and the opcode map
of R96 itself, as rows of mask and match. -/

namespace Sys2Proof

/-! ### The fields of a word (R91) -/

/-- `n0`, bits 15 to 12: the instruction family. -/
def wordFamily (w : Word) : Nibble := w.extractLsb' 12 4

/-- `X`, bits 11 to 8. -/
def wordX (w : Word) : RegIdx := (w.extractLsb' 8 4).toFin

/-- `Y`, bits 7 to 4. -/
def wordY (w : Word) : RegIdx := (w.extractLsb' 4 4).toFin

/-- `N`, bits 3 to 0. -/
def wordN (w : Word) : Nibble := w.extractLsb' 0 4

/-- `NN`, bits 7 to 0. -/
def wordNN (w : Word) : Byte := w.extractLsb' 0 8

/-- `NNN`, bits 11 to 0. -/
def wordNNN (w : Word) : Imm12 := w.extractLsb' 0 12

/-! ### The decoder (R94) -/

/-- Family 0, decided by `N` alone: `0??0` is CLEAR, `0??E` is RETURN (R97). -/
def decodeFamily0 (w : Word) : Instr :=
  match wordN w with
  | 0x0#4 => .clear
  | 0xE#4 => .ret
  | _ => .unknown w

/-- Family 8, decided by `N` alone. -/
def decodeFamily8 (w : Word) : Instr :=
  match wordN w with
  | 0x0#4 => .setReg (wordX w) (wordY w)
  | 0x1#4 => .orReg (wordX w) (wordY w)
  | 0x2#4 => .andReg (wordX w) (wordY w)
  | 0x3#4 => .xorReg (wordX w) (wordY w)
  | 0x4#4 => .addReg (wordX w) (wordY w)
  | 0x5#4 => .subFwd (wordX w) (wordY w)
  | 0x6#4 => .shiftRight (wordX w) (wordY w)
  | 0x7#4 => .subRev (wordX w) (wordY w)
  | 0xE#4 => .shiftLeft (wordX w) (wordY w)
  | _ => .unknown w

/-- Family E, decided by `NN` alone. -/
def decodeFamilyE (w : Word) : Instr :=
  match wordNN w with
  | 0x9E#8 => .skipKeyDown (wordX w)
  | 0xA1#8 => .skipKeyUp (wordX w)
  | _ => .unknown w

/-- Family F, decided by `NN` alone. -/
def decodeFamilyF (w : Word) : Instr :=
  match wordNN w with
  | 0x07#8 => .getDelay (wordX w)
  | 0x0A#8 => .waitKey (wordX w)
  | 0x15#8 => .setDelay (wordX w)
  | 0x18#8 => .setSound (wordX w)
  | 0x1E#8 => .addIndex (wordX w)
  | 0x29#8 => .setIndexFont (wordX w)
  | 0x33#8 => .storeBcd (wordX w)
  | 0x55#8 => .dumpRegs (wordX w)
  | 0x65#8 => .loadRegs (wordX w)
  | _ => .unknown w

/-- The decoder: a pure, total function of the word, dispatching on the top nibble and, in families 0, 8, E and F,
on the low nibble or the low byte (R94, R98). UNVERIFIED (log entry 6, unsafe): 22 of the 34
patterns, which the spec gives from general knowledge (K1). -/
def decode (w : Word) : Instr :=
  match wordFamily w with
  | 0x0#4 => decodeFamily0 w
  | 0x1#4 => .jump (wordNNN w)
  | 0x2#4 => .call (wordNNN w)
  | 0x3#4 => .skipEqImm (wordX w) (wordNN w)
  | 0x4#4 => .skipNeqImm (wordX w) (wordNN w)
  | 0x5#4 => .skipEqReg (wordX w) (wordY w)
  | 0x6#4 => .setImm (wordX w) (wordNN w)
  | 0x7#4 => .addImm (wordX w) (wordNN w)
  | 0x8#4 => decodeFamily8 w
  | 0x9#4 => .skipNeqReg (wordX w) (wordY w)
  | 0xA#4 => .setIndex (wordNNN w)
  | 0xB#4 => .jumpOffset (wordNNN w)
  | 0xC#4 => .rand (wordX w) (wordNN w)
  | 0xD#4 => .draw (wordX w) (wordY w) (wordN w).toFin
  | 0xE#4 => decodeFamilyE w
  | _ => decodeFamilyF w  -- 0xF, the one family left

/-- Why a byte sequence holds no instruction. -/
inductive DecodeError where
  /-- Fewer than the two bytes of a word (R90). Raised by `decodeBytes`; safe: nothing is decoded. -/
  | truncated
  deriving DecidableEq, Repr

/-- The word of two bytes as memory holds them: the byte at the lower address is the high byte (R64). -/
def wordOfBytes (hi lo : Byte) : Word := hi ++ lo

/-- Decodes the first instruction of a byte sequence and returns it with the bytes after it. -/
def decodeBytes : List Byte → Except DecodeError (Instr × List Byte)
  | hi :: lo :: rest => .ok (decode (wordOfBytes hi lo), rest)
  | [_] => .error .truncated
  | [] => .error .truncated

/-! ### The encoder -/

/-- A register index or row count as the 4-bit field that holds it. -/
def nibbleOf (x : Fin 16) : Nibble := BitVec.ofFin x

/-- Formats `NNN`: family, address (R92). -/
def encodeNNN (family : Nibble) (nnn : Imm12) : Word := family ++ nnn

/-- Formats `XNN` and `X`: family, register, immediate or sub-opcode byte (R92). -/
def encodeXNN (family : Nibble) (x : RegIdx) (nn : Byte) : Word := family ++ nibbleOf x ++ nn

/-- Formats `XY` and `XYN`: family, two registers, low nibble (R92). -/
def encodeXYN (family : Nibble) (x y : RegIdx) (n : Nibble) : Word := family ++ nibbleOf x ++ nibbleOf y ++ n

/-- The canonical word of an instruction (R96, R97); an UNKNOWN keeps its own. -/
def encode : Instr → Word
  | .clear => 0x00E0
  | .ret => 0x00EE
  | .jump nnn => encodeNNN 0x1 nnn
  | .call nnn => encodeNNN 0x2 nnn
  | .skipEqImm x nn => encodeXNN 0x3 x nn
  | .skipNeqImm x nn => encodeXNN 0x4 x nn
  | .skipEqReg x y => encodeXYN 0x5 x y 0x0
  | .skipNeqReg x y => encodeXYN 0x9 x y 0x0
  | .setImm x nn => encodeXNN 0x6 x nn
  | .addImm x nn => encodeXNN 0x7 x nn
  | .setReg x y => encodeXYN 0x8 x y 0x0
  | .orReg x y => encodeXYN 0x8 x y 0x1
  | .andReg x y => encodeXYN 0x8 x y 0x2
  | .xorReg x y => encodeXYN 0x8 x y 0x3
  | .addReg x y => encodeXYN 0x8 x y 0x4
  | .subFwd x y => encodeXYN 0x8 x y 0x5
  | .shiftRight x y => encodeXYN 0x8 x y 0x6
  | .subRev x y => encodeXYN 0x8 x y 0x7
  | .shiftLeft x y => encodeXYN 0x8 x y 0xE
  | .setIndex nnn => encodeNNN 0xA nnn
  | .jumpOffset nnn => encodeNNN 0xB nnn
  | .rand x nn => encodeXNN 0xC x nn
  | .draw x y n => encodeXYN 0xD x y (nibbleOf n)
  | .skipKeyDown x => encodeXNN 0xE x 0x9E
  | .skipKeyUp x => encodeXNN 0xE x 0xA1
  | .getDelay x => encodeXNN 0xF x 0x07
  | .waitKey x => encodeXNN 0xF x 0x0A
  | .setDelay x => encodeXNN 0xF x 0x15
  | .setSound x => encodeXNN 0xF x 0x18
  | .addIndex x => encodeXNN 0xF x 0x1E
  | .setIndexFont x => encodeXNN 0xF x 0x29
  | .storeBcd x => encodeXNN 0xF x 0x33
  | .dumpRegs x => encodeXNN 0xF x 0x55
  | .loadRegs x => encodeXNN 0xF x 0x65
  | .unknown w => w

/-- The two bytes of an instruction as memory holds them, high byte first (R64). -/
def encodeBytes (i : Instr) : List Byte := [(encode i).extractLsb' 8 8, (encode i).extractLsb' 0 8]

/-! ### The opcode map (R96) -/

/-- One row of the opcode map: a word `w` is of this kind when `w & mask = bits`. -/
structure OpcodeRow where
  kind : Kind
  mask : Word
  bits : Word
  deriving DecidableEq, Repr

/-- Whether a word has the bits a row examines. -/
def rowMatches (row : OpcodeRow) (w : Word) : Bool := w &&& row.mask == row.bits

/-- The rows of R96 for families 0 to 7 and 9. -/
def opcodeRowsLow : List OpcodeRow :=
  [⟨.clear, 0xF00F, 0x0000⟩, ⟨.ret, 0xF00F, 0x000E⟩, ⟨.jump, 0xF000, 0x1000⟩, ⟨.call, 0xF000, 0x2000⟩,
   ⟨.skipEqImm, 0xF000, 0x3000⟩, ⟨.skipNeqImm, 0xF000, 0x4000⟩, ⟨.skipEqReg, 0xF000, 0x5000⟩,
   ⟨.skipNeqReg, 0xF000, 0x9000⟩, ⟨.setImm, 0xF000, 0x6000⟩, ⟨.addImm, 0xF000, 0x7000⟩]

/-- The rows of R96 for family 8. -/
def opcodeRowsAlu : List OpcodeRow :=
  [⟨.setReg, 0xF00F, 0x8000⟩, ⟨.orReg, 0xF00F, 0x8001⟩, ⟨.andReg, 0xF00F, 0x8002⟩, ⟨.xorReg, 0xF00F, 0x8003⟩,
   ⟨.addReg, 0xF00F, 0x8004⟩, ⟨.subFwd, 0xF00F, 0x8005⟩, ⟨.shiftRight, 0xF00F, 0x8006⟩,
   ⟨.subRev, 0xF00F, 0x8007⟩, ⟨.shiftLeft, 0xF00F, 0x800E⟩]

/-- The rows of R96 for families A to F. -/
def opcodeRowsHigh : List OpcodeRow :=
  [⟨.setIndex, 0xF000, 0xA000⟩, ⟨.jumpOffset, 0xF000, 0xB000⟩, ⟨.rand, 0xF000, 0xC000⟩, ⟨.draw, 0xF000, 0xD000⟩,
   ⟨.skipKeyDown, 0xF0FF, 0xE09E⟩, ⟨.skipKeyUp, 0xF0FF, 0xE0A1⟩, ⟨.getDelay, 0xF0FF, 0xF007⟩,
   ⟨.waitKey, 0xF0FF, 0xF00A⟩, ⟨.setDelay, 0xF0FF, 0xF015⟩, ⟨.setSound, 0xF0FF, 0xF018⟩,
   ⟨.addIndex, 0xF0FF, 0xF01E⟩, ⟨.setIndexFont, 0xF0FF, 0xF029⟩, ⟨.storeBcd, 0xF0FF, 0xF033⟩,
   ⟨.dumpRegs, 0xF0FF, 0xF055⟩, ⟨.loadRegs, 0xF0FF, 0xF065⟩]

/-- The opcode map of R96, its 34 rows. -/
def opcodeRows : List OpcodeRow := opcodeRowsLow ++ opcodeRowsAlu ++ opcodeRowsHigh

/-- The kind the opcode map gives a word: that of the row it matches, UNKNOWN if it matches none (R96). -/
def tableKind (w : Word) : Kind :=
  match opcodeRows.find? (rowMatches · w) with
  | some row => row.kind
  | none => .unknown

/-- Which bits of a word its kind depends on or uses as an operand: the others are don't-care bits (R97). -/
def caredBits : Kind → Word
  | .clear | .ret => 0xF00F
  | .skipEqReg | .skipNeqReg => 0xFFF0
  | _ => 0xFFFF

/-! ### The host's question about a table word -/

/-- The bits of a table word as the two bytes memory holds: `w` cut to `nbits`, high byte first (R64, R90). -/
def tableWordBytes (nbits w : Nat) : List Byte :=
  let word := BitVec.ofNat 16 (w % 2 ^ nbits)
  [word.extractLsb' 8 8, word.extractLsb' 0 8]

/-- The instruction the decoder reads from a table word laid out in memory. -/
def decodeTableWord (nbits w : Nat) : Option Instr :=
  match decodeBytes (tableWordBytes nbits w) with
  | .ok (i, _) => some i
  | .error _ => none

end Sys2Proof
end

