-- ==== Sys2Proof/Machine/Flags.lean ====
section
/-! DEFINITION. Every result and flag computation of spec/42_alu.md, each from the operand values alone: the exact
result is formed over the naturals, then narrowed to eight bits, and the flag is a comparison or a bit of the
operand (R160, R173). -/

namespace Sys2Proof.Machine

/-- What a flag-defining instruction computes: the byte for `V[X]` and the bit for `VF` (R160). -/
structure FlaggedResult where
  value : Byte
  flag : Bool
  deriving DecidableEq, Repr

/-- A flag as `VF` holds it: 0 or 1 (R23). -/
def flagByte (b : Bool) : Byte := if b then 1 else 0

/-- Addition: the low eight bits of the 9-bit sum, and its ninth bit (R167). -/
def addFlags (a b : Byte) : FlaggedResult :=
  let sum := a.toNat + b.toNat
  { value := BitVec.ofNat 8 sum, flag := 255 < sum }

/-- Subtraction `a - b` modulo 256, flag 1 when there is no borrow, equality included (R168, R170). -/
def subFlags (a b : Byte) : FlaggedResult :=
  { value := BitVec.ofNat 8 (a.toNat + 256 - b.toNat), flag := b.toNat ≤ a.toNat }

/-- Logical shift right by one place, flag the bit shifted out (R169). -/
def shiftRightFlags (a : Byte) : FlaggedResult :=
  { value := BitVec.ofNat 8 (a.toNat / 2), flag := a.toNat % 2 = 1 }

/-- Shift left by one place, cut to eight bits, flag the bit shifted out (R171). -/
def shiftLeftFlags (a : Byte) : FlaggedResult :=
  { value := BitVec.ofNat 8 (a.toNat * 2), flag := 128 ≤ a.toNat }

/-- Addition modulo 256 with no flag (R162). -/
def addWrap (a b : Byte) : Byte := BitVec.ofNat 8 (a.toNat + b.toNat)

/-- The three decimal digits of a byte, most significant first (R193). -/
def decimalDigits (v : Byte) : List Byte :=
  [BitVec.ofNat 8 (v.toNat / 100), BitVec.ofNat 8 (v.toNat / 10 % 10), BitVec.ofNat 8 (v.toNat % 10)]

end Sys2Proof.Machine
end

