-- ==== Sys2Proof/Config.lean ====
section
/-! DEFINITION. What an implementation fixes, as types (spec/00_scope.md R7), and the model's one free value.
The VALUES taken for the parameters stand in Machine/Params.lean, where a later repair may change them. -/

namespace Sys2Proof.Config

/-- `DRAW_EDGE_POLICY` (R7, R213): what happens to a sprite pixel beyond the screen's edge. -/
inductive EdgePolicy where
  /-- The pixel is dropped: it toggles nothing and cannot collide. -/
  | clip
  /-- The pixel lands on the column modulo 64 and the row modulo 32. -/
  | wrap
  deriving DecidableEq, Repr

/-- `WAIT_KEY_PRIORITY` (R7, R232): which key WAIT_KEY reports when several are down. -/
inductive KeyPriority where
  | lowest
  | highest
  deriving DecidableEq, Repr

/-- DESIGN CHOICE (log entry 1, safe): the random byte of the `n`-th RAND of a run (R172, D17, U7). It has no body:
nothing is known of it, so what is proved about RAND holds for every byte. -/
opaque randByte : Nat → Byte

end Sys2Proof.Config
end

