-- ==== Sys2Proof/Machine/Params.lean ====
section
/-! DEFINITION. The values this spec takes for the machine's named parameters (spec/00_scope.md R7). Every operation
that depends on one takes it as an argument, so the other value can be run and reasoned about too. -/

namespace Sys2Proof.Machine

/-- `DRAW_EDGE_POLICY = clip` (R7, R213, D13). UNVERIFIED (log entry 2, unsafe for a wrapping
core): the spec's own decision. -/
def drawEdgePolicy : Config.EdgePolicy := .clip

/-- `KEY_SKIP_CONSUMES = false` (R7, R233, D15). UNVERIFIED (log entry 3, unsafe for a consuming core):
the spec's own decision. -/
def keySkipConsumes : Bool := false

/-- `WAIT_KEY_PRIORITY = lowest` (R7, R232, D16). UNVERIFIED (log entry 4, unsafe for another tie-break):
the spec's own decision. -/
def waitKeyPriority : Config.KeyPriority := .lowest

/-- Glyphs 0 to 3 (R24). -/
def fontGlyphs0 : List Byte :=
  [0xF0, 0x90, 0x90, 0x90, 0xF0,  0x20, 0x60, 0x20, 0x20, 0x70,
   0xF0, 0x10, 0xF0, 0x80, 0xF0,  0xF0, 0x10, 0xF0, 0x10, 0xF0]

/-- Glyphs 4 to 7 (R24). -/
def fontGlyphs4 : List Byte :=
  [0x90, 0x90, 0xF0, 0x10, 0x10,  0xF0, 0x80, 0xF0, 0x10, 0xF0,
   0xF0, 0x80, 0xF0, 0x90, 0xF0,  0xF0, 0x10, 0x20, 0x40, 0x40]

/-- Glyphs 8 to B (R24). -/
def fontGlyphs8 : List Byte :=
  [0xF0, 0x90, 0xF0, 0x90, 0xF0,  0xF0, 0x90, 0xF0, 0x10, 0xF0,
   0xF0, 0x90, 0xF0, 0x90, 0x90,  0xE0, 0x90, 0xE0, 0x90, 0xE0]

/-- Glyphs C to F (R24). -/
def fontGlyphsC : List Byte :=
  [0xF0, 0x80, 0x80, 0x80, 0xF0,  0xE0, 0x90, 0x90, 0x90, 0xE0,
   0xF0, 0x80, 0xF0, 0x80, 0xF0,  0xF0, 0x80, 0xF0, 0x80, 0x80]

/-- `FONT`, 80 bytes, glyph `d` at `5 * d` (R24). UNVERIFIED (log entry 5, unsafe): the spec gives the bytes from
general knowledge (K3). -/
def font : List Byte := fontGlyphs0 ++ fontGlyphs4 ++ fontGlyphs8 ++ fontGlyphsC

end Sys2Proof.Machine
end

