-- ==== Sys2Proof/Machine/State.lean ====
section
/-! DEFINITION. The machine's state as plain data: the eleven items of spec/10_state.md R20, and one counter of the
model's own; the reasons an operation can stop; the state after reset (R35). -/

namespace Sys2Proof.Machine

/-- `MEM` (R21) as its differences from the reset contents: (address, byte) pairs, addresses strictly rising, no
entry equal to what an unlisted address reads as (`resetByte` in Machine/Memory.lean, `Memory.wf`). -/
abbrev Memory := List Host.Cell

/-- `FB` (R30): 32 rows of 64 one-bit pixels, row `y` at index `y`, column `x` at index `x` of its row. -/
abbrev Framebuffer := Vector (Vector Bool 64) 32

/-- The architectural state (R20: "the following eleven items and nothing else") and the model's own counter. -/
structure State where
  /-- `MEM`, 4096 bytes at 0x000 to 0xFFF (R21). -/
  mem : Memory
  /-- `V[0]` to `V[15]`, 8 bits each; `V[15]` is also the flag (R22, R23). -/
  v : Vector Byte 16
  /-- `I`, the index register, 16 bits, never masked (R25). -/
  i : Word
  /-- `PC`, the program counter, 16 bits: between operations the address of the next word to fetch (R26). -/
  pc : Word
  /-- `STACK`, sixteen 16-bit return addresses, apart from `MEM` (R27). -/
  stack : Vector Word 16
  /-- `SP`, the number of stack entries in use, 0 to 16: the five-bit values 17 to 31 are unreachable (R27, D9;
  DESIGN CHOICE, log entry 7, safe) and have no term here. -/
  sp : Fin 17
  /-- `DT`, the delay timer (R28). -/
  dt : Byte
  /-- `ST`, the sound timer (R28). -/
  st : Byte
  /-- `KEY`, the keypad latch: `true` means the key is down (R29). -/
  key : Vector Bool 16
  /-- `FB`, the framebuffer (R30). -/
  fb : Framebuffer
  /-- `DIRTY`, set when the host should present the framebuffer again (R31). -/
  dirty : Bool
  /-- The model's own field, no state of the hardware: how many RANDs have drawn a byte, so that the next draws a
  fresh free value of `Config.randByte` (DESIGN CHOICE, log entry 1, safe). -/
  randDraws : Nat
  deriving DecidableEq, Repr

/-- The error kinds of spec/60_exceptions.md R280. An error leaves the state exactly as it was (R281), so none
carries one. The model stops where the hardware reports and waits for its host: safe (log entry 8); the operation
`perform` of Machine/HostOps.lean models the report itself. -/
inductive Fault where
  /-- Raised by `load_program` alone, never by a step: more than 3584 bytes (R287). Safe. -/
  | programTooLarge (length : Nat)
  /-- Raised by CALL with `SP = 16` (R282). Safe. -/
  | stackOverflow
  /-- Raised by RETURN with `SP = 0` (R283). Safe. -/
  | stackUnderflow
  /-- Raised by the fetch (with `PC`) and by DRAW, STORE_BCD, DUMP_REGS and LOAD_REGS (with the lowest offending
  address) when an address above 0xFFF would be accessed (R284). Safe. -/
  | memoryOutOfRange (addr : Nat)
  /-- Raised by SKIP_KEY_DOWN and SKIP_KEY_UP when `V[X] > 15` (R285). Safe. -/
  | keyIndexOutOfRange (value : Byte)
  deriving DecidableEq, Repr

/-- Why an instruction would have no meaning. -/
inductive Refusal where
  /-- Raised by an arm of `exec` whose instruction has no meaning in the model; no arm is one. Safe. -/
  | notModelled (mnemonic : String)
  deriving DecidableEq, Repr

/-- The three outcomes of a step of this machine. -/
abbrev Outcome := Host.Outcome State Fault Refusal

/-- The state after `initialize` (R35): every item at the value the spec gives. `mem := []` lists no difference from
the reset contents, which are the font and zeros. The model's counter starts at 0 (DESIGN CHOICE, log entry 1). -/
def State.reset : State where
  mem := []
  v := Vector.replicate 16 0
  i := 0
  pc := 0x200
  stack := Vector.replicate 16 0
  sp := 0
  dt := 0
  st := 0
  key := Vector.replicate 16 false
  fb := Vector.replicate 32 (Vector.replicate 64 false)
  dirty := false
  randDraws := 0

end Sys2Proof.Machine
end

