-- ==== Sys2Proof/Machine/Memory.lean ====
section
/-! DEFINITION. The one address space (spec/20_memory.md R60 to R72): what an unlisted address reads as, reading and
writing one byte, the canonical form, and the runs of byte accesses the instructions make. -/

namespace Sys2Proof.Machine

/-- The number of bytes of `MEM`; the valid addresses are those below it (R21, R60). -/
def memSize : Nat := 0x1000

/-- What an address nothing has written reads as: the reset contents, `FONT` at 0x000 to 0x04F and 0 above
(R35, R67). -/
def resetByte (a : Nat) : Byte := font.getD a 0

/-- `MEM[a]` (R61): the byte listed for `a`, or the reset contents. -/
def byteAt : Memory → Nat → Byte
  | [], a => resetByte a
  | (b, v) :: m, a => if a = b then v else byteAt m a

/-- `MEM[a] <- v` (R62), keeping the canonical form: a byte equal to the reset contents is not listed. -/
def writeByte : Memory → Nat → Byte → Memory
  | [], a, v => if v = resetByte a then [] else [(a, v)]
  | (b, u) :: m, a, v =>
    if a < b then
      if v = resetByte a then (b, u) :: m else (a, v) :: (b, u) :: m
    else if a = b then
      if v = resetByte a then m else (a, v) :: m
    else
      (b, u) :: writeByte m a v

/-- The canonical form from address `lo` on: addresses strictly rising and inside memory, no listed byte equal to
the reset contents. -/
def wfFrom (lo : Nat) : Memory → Bool
  | [] => true
  | (a, v) :: m => decide (lo ≤ a) && decide (a < memSize) && decide (v ≠ resetByte a) && wfFrom (a + 1) m

/-- The canonical form of a memory: equal memories are equal lists. -/
def Memory.wf (m : Memory) : Bool := wfFrom 0 m

/-- The 16-bit value at `a` and `a + 1`, the byte at the lower address in bits 15 to 8 (R61, R64). -/
def wordAt (m : Memory) (a : Nat) : Word := byteAt m a ++ byteAt m (a + 1)

/-- Writes a run of bytes from `a` upward, one byte at a time in ascending order (R66). -/
def writeBytes : Memory → Nat → List Byte → Memory
  | m, _, [] => m
  | m, a, v :: vs => writeBytes (writeByte m a v) (a + 1) vs

/-- Reads `n` bytes from `a` upward, one byte at a time in ascending order (R66). -/
def readBytes (m : Memory) (a : Nat) : Nat → List Byte
  | 0 => []
  | n + 1 => byteAt m a :: readBytes m (a + 1) n

/-- Whether every one of the `n` addresses from `a` on is valid; no address is ever reduced (R63, R196). An access
of no bytes is always in range (R211). -/
def inRange (a n : Nat) : Bool := n = 0 || a + n ≤ memSize

end Sys2Proof.Machine
end

