-- ==== Sys2Proof/Machine/Operands.lean ====
section
/-! DEFINITION. The operand forms (spec/30_encoding.md R93, spec/43_index_memory.md R196): register operands,
zero-extended immediates, the address an instruction forms from `I`, the key index of a register, and the start
position of a sprite. -/

namespace Sys2Proof.Machine

/-- `V[x]` (R22). -/
def reg (s : State) (x : RegIdx) : Byte := s.v[x.val]

/-- `NNN` as a 16-bit value, zero-extended (R93). -/
def immAddr (nnn : Imm12) : Word := nnn.setWidth 16

/-- The target of JUMP_OFFSET: `NNN` plus `V0`, never masked (R144). -/
def offsetTarget (s : State) (nnn : Imm12) : Word := immAddr nnn + (reg s 0).setWidth 16

/-- `I` as the base of a data access: a natural number, so that `I + r` never wraps (R196). -/
def indexAddr (s : State) : Nat := s.i.toNat

/-- The address of a byte's glyph, the whole byte times 5 (R192). -/
def glyphAddr (v : Byte) : Word := BitVec.ofNat 16 (v.toNat * 5)

/-- `I` plus a byte, modulo 65536 (R191). -/
def indexPlus (s : State) (v : Byte) : Word := BitVec.ofNat 16 (s.i.toNat + v.toNat)

/-- The key a byte names: none above 15, with no reduction to the low nibble (R237). -/
def keyIndex? (v : Byte) : Option KeyIdx := if h : v.toNat < 16 then some ⟨v.toNat, h⟩ else none

/-- The column a sprite starts at, `V[X] mod 64` (R213). -/
def startColumn (v : Byte) : Nat := v.toNat % 64

/-- The row a sprite starts at, `V[Y] mod 32` (R213). -/
def startRow (v : Byte) : Nat := v.toNat % 32

/-- `V[0]` to `V[x]` in order (R194). -/
def regsUpTo (s : State) (x : RegIdx) : List Byte := s.v.toList.take (x.val + 1)

end Sys2Proof.Machine
end

