-- ==== Sys2Proof/Machine/Ops.lean ====
section
/-! DEFINITION. The named operations the meanings are written over: raising an error, the fetch, the program counter's
moves, and one update for each item of state. -/

namespace Sys2Proof.Machine

/-! ### Errors -/

/-- Raising an error (spec/60_exceptions.md R281, R292): the operation ends at once and commits nothing. There is no
trap entry and no return from one, so this is the machine's whole exception mechanism; what the host sees of it is
`perform` of Machine/HostOps.lean. -/
def raise (f : Fault) : Outcome := .fault f

/-- Runs `k` when the `n` addresses from `base` on are valid; raises `MemoryOutOfRange` with the lowest offending one
when they are not, before anything is written (R63, R284). -/
def withRange (base n : Nat) (k : Outcome) : Outcome :=
  if inRange base n then k else raise (.memoryOutOfRange (max base memSize))

/-! ### The fetch -/

/-- The fetch (spec/40_step_cycle.md R120, R121): the big-endian word at `PC` and `PC + 1`, for any `PC`, odd or even
(R65); with `PC > 0xFFE` the error carries `PC` itself. -/
def fetch (s : State) : Except Fault Word :=
  if inRange s.pc.toNat 2 then .ok (wordAt s.mem s.pc.toNat) else .error (.memoryOutOfRange s.pc.toNat)

/-! ### The program counter -/

/-- The advanced program counter: the fetch address plus 2 (R122). -/
def nextPc (s : State) : Word := s.pc + 2

/-- Transfers control to `target`, with no masking and no check (R140). -/
def jumpTo (s : State) (target : Word) : State := { s with pc := target }

/-- Leaves `PC` at the next word (R122). -/
def advance (s : State) : State := jumpTo s (nextPc s)

/-- Leaves `PC` a further 2 on when the condition holds: a skip of one word (R140). -/
def skipIf (cond : Bool) (s : State) : State := if cond then jumpTo s (nextPc s + 2) else advance s

/-! ### Registers and timers -/

/-- `V[x] <- v` (R22). -/
def setReg (s : State) (x : RegIdx) (v : Byte) : State := { s with v := s.v.set x.val v }

/-- `V[15] <- flag`, 0 or 1 (R23). -/
def setFlag (s : State) (b : Bool) : State := setReg s flagReg (flagByte b)

/-- Writes a result and then its flag, so that with `X = 0xF` the flag is what `VF` holds (R160, D10). -/
def setFlagged (s : State) (x : RegIdx) (r : FlaggedResult) : State := setFlag (setReg s x r.value) r.flag

/-- Loads `V[0]` to `V[x]` with the bytes from `base` on; the registers above keep their values (R195). -/
def loadRegsFrom (s : State) (x : RegIdx) (base : Nat) : State :=
  { s with v := Vector.ofFn fun r : Fin 16 => if r ≤ x then byteAt s.mem (base + r.val) else s.v[r.val] }

/-- `I <- w` (R25). -/
def setI (s : State) (w : Word) : State := { s with i := w }

/-- `I <- I + X + 1` (R194, R195). -/
def bumpIndex (s : State) (x : RegIdx) : State := setI s (BitVec.ofNat 16 (s.i.toNat + x.val + 1))

/-- `DT <- v` (R28). -/
def setDt (s : State) (v : Byte) : State := { s with dt := v }

/-- `ST <- v` (R28). -/
def setSt (s : State) (v : Byte) : State := { s with st := v }

/-! ### Memory -/

/-- Writes a run of bytes from `base` on (R62, R66). -/
def storeBytes (s : State) (base : Nat) (bytes : List Byte) : State := { s with mem := writeBytes s.mem base bytes }

/-! ### The call stack -/

/-- `STACK[SP] <- w; SP <- SP + 1`, where there is room (R142). -/
def pushEntry (s : State) (w : Word) (h : s.sp.val < 16) : State :=
  { s with stack := s.stack.set s.sp.val w, sp := ⟨s.sp.val + 1, Nat.succ_lt_succ h⟩ }

/-- A push, or no state when `SP = 16` (R142). -/
def push? (s : State) (w : Word) : Option State := if h : s.sp.val < 16 then some (pushEntry s w h) else none

/-- `SP <- SP - 1`; the entry uncovered stays in `STACK` (R143). -/
def popEntry (s : State) : State := { s with sp := ⟨s.sp.val - 1, by have := s.sp.isLt; omega⟩ }

/-- A pop with the entry it uncovers, or nothing when `SP = 0` (R143). -/
def pop? (s : State) : Option (Word × State) :=
  if h : 0 < s.sp.val then some (s.stack[s.sp.val - 1]'(by have := s.sp.isLt; omega), popEntry s) else none

/-! ### The keypad -/

/-- `KEY[k]` (R29). -/
def keyIsDown (s : State) (k : KeyIdx) : Bool := s.key[k.val]

/-- `KEY[k] <- down` (R29). -/
def setKey (s : State) (k : KeyIdx) (down : Bool) : State := { s with key := s.key.set k.val down }

/-- The key WAIT_KEY reports: the lowest or the highest that is down (R232, D16). -/
def downKey? (p : Config.KeyPriority) (s : State) : Option KeyIdx :=
  match p with
  | .lowest => (List.finRange 16).find? (keyIsDown s)
  | .highest => (List.finRange 16).reverse.find? (keyIsDown s)

/-- What the two key skips share (R230, R231, R233, R237): raises on a value above 15; skips when the key's level is
`level`; under `consumes`, a key found down is cleared, whether or not the instruction skipped. -/
def skipOnKey (consumes : Bool) (level : Bool) (x : RegIdx) (s : State) : Outcome :=
  match keyIndex? (reg s x) with
  | none => raise (.keyIndexOutOfRange (reg s x))
  | some k =>
    let down := keyIsDown s k
    let s' := if consumes && down then setKey s k false else s
    .next (skipIf (down == level) s')

/-! ### The display -/

/-- `FB[y][x]` (R30). -/
def pixel (fb : Framebuffer) (x : Fin 64) (y : Fin 32) : Bool := fb[y.val][x.val]

/-- `FB[y][x] <- FB[y][x] ^ 1` (R212). -/
def togglePixel (fb : Framebuffer) (x : Fin 64) (y : Fin 32) : Framebuffer :=
  fb.set y.val (fb[y.val].set x.val (!fb[y.val][x.val]))

/-- A framebuffer with every pixel clear (R210). -/
def clearFb : Framebuffer := Vector.replicate 32 (Vector.replicate 64 false)

/-- `FB <- fb`, and `DIRTY <- 1` (R31, R210, R211). -/
def present (s : State) (fb : Framebuffer) : State := { s with fb := fb, dirty := true }

/-- A pixel's place, column and row. -/
abbrev Place := Fin 64 × Fin 32

/-- Where the pixel of column `x` and row `y` lands: under `clip` nowhere beyond the edge, under `wrap` on the
reduced position (R213). -/
def landing (p : Config.EdgePolicy) (x y : Nat) : Option Place :=
  match p with
  | .clip => if h : x < 64 ∧ y < 32 then some (⟨x, h.1⟩, ⟨y, h.2⟩) else none
  | .wrap => some (⟨x % 64, Nat.mod_lt x (by decide)⟩, ⟨y % 32, Nat.mod_lt y (by decide)⟩)

/-- The places the 1 bits of one sprite row land on, left to right: bit 7 is the leftmost (R212, K4). UNVERIFIED (log
entry 5, unsafe): the bit order, which the spec gives from general knowledge. -/
def rowLandings (p : Config.EdgePolicy) (x0 y : Nat) (b : Byte) : List Place :=
  (List.range 8).filterMap fun c => if b.getLsbD (7 - c) then landing p (x0 + c) y else none

/-- The places the 1 bits of a sprite land on, row by row in the order DRAW visits them (R211). -/
def spriteLandings (p : Config.EdgePolicy) (x0 : Nat) : Nat → List Byte → List Place
  | _, [] => []
  | y, b :: bs => rowLandings p x0 y b ++ spriteLandings p x0 (y + 1) bs

/-- One visit of DRAW's inner loop: note a collision if the pixel is set, then toggle it (R211). -/
def visit (acc : Framebuffer × Bool) (place : Place) : Framebuffer × Bool :=
  (togglePixel acc.1 place.1 place.2, acc.2 || pixel acc.1 place.1 place.2)

/-- XOR compositing (R211): the framebuffer after every visit, and whether one of them met a set pixel. -/
def composite (fb : Framebuffer) (places : List Place) : Framebuffer × Bool := places.foldl visit (fb, false)

end Sys2Proof.Machine
end

