-- ==== Sys2Proof/Machine/Alu.lean ====
section
/-! DEFINITION. The meanings of spec/42_alu.md: moves, logic, add, subtract, shift and RAND. -/

namespace Sys2Proof.Machine

/-- SET_IMM (R161). -/
def execSetImm (x : RegIdx) (nn : Byte) (s : State) : Outcome := .next (advance (setReg s x nn))

/-- ADD_IMM (R162): modulo 256, no flag. -/
def execAddImm (x : RegIdx) (nn : Byte) (s : State) : Outcome := .next (advance (setReg s x (addWrap (reg s x) nn)))

/-- SET_REG (R163). -/
def execSetReg (x y : RegIdx) (s : State) : Outcome := .next (advance (setReg s x (reg s y)))

/-- OR (R164); `VF` is no flag here (D11). -/
def execOrReg (x y : RegIdx) (s : State) : Outcome := .next (advance (setReg s x (reg s x ||| reg s y)))

/-- AND (R165). -/
def execAndReg (x y : RegIdx) (s : State) : Outcome := .next (advance (setReg s x (reg s x &&& reg s y)))

/-- XOR (R166). -/
def execXorReg (x y : RegIdx) (s : State) : Outcome := .next (advance (setReg s x (reg s x ^^^ reg s y)))

/-- ADD_REG (R167). -/
def execAddReg (x y : RegIdx) (s : State) : Outcome := .next (advance (setFlagged s x (addFlags (reg s x) (reg s y))))

/-- SUB_FWD (R168): `V[X] - V[Y]`. -/
def execSubFwd (x y : RegIdx) (s : State) : Outcome := .next (advance (setFlagged s x (subFlags (reg s x) (reg s y))))

/-- SHIFT_RIGHT (R169): shifts `V[X]` in place; `Y` is ignored. -/
def execShiftRight (x _y : RegIdx) (s : State) : Outcome := .next (advance (setFlagged s x (shiftRightFlags (reg s x))))

/-- SUB_REV (R170): `V[Y] - V[X]`. -/
def execSubRev (x y : RegIdx) (s : State) : Outcome := .next (advance (setFlagged s x (subFlags (reg s y) (reg s x))))

/-- SHIFT_LEFT (R171): shifts `V[X]` in place; `Y` is ignored. -/
def execShiftLeft (x _y : RegIdx) (s : State) : Outcome := .next (advance (setFlagged s x (shiftLeftFlags (reg s x))))

/-- RAND with the random byte given (R172): `V[X] <- rand & NN`. -/
def randWith (byte : Byte) (x : RegIdx) (nn : Byte) (s : State) : State := advance (setReg s x (byte &&& nn))

/-- Counts one draw of the free random byte; the model's own bookkeeping (log entry 1). -/
def countDraw (s : State) : State := { s with randDraws := s.randDraws + 1 }

/-- RAND (R172) with a free byte: nothing is known of `Config.randByte`. -/
def execRand (x : RegIdx) (nn : Byte) (s : State) : Outcome :=
  .next (countDraw (randWith (Config.randByte s.randDraws) x nn s))

end Sys2Proof.Machine
end

