-- ==== Sys2Proof/Machine/ControlFlow.lean ====
section
/-! DEFINITION. The meanings of spec/41_control_flow.md: JUMP, CALL, RETURN, JUMP_OFFSET and the four skips. -/

namespace Sys2Proof.Machine

/-- RETURN (R143): pops the stack into `PC`; with `SP = 0` raises `StackUnderflow`. -/
def execRet (s : State) : Outcome :=
  match pop? s with
  | none => raise .stackUnderflow
  | some (target, s') => .next (jumpTo s' target)

/-- JUMP (R141): `PC <- NNN`. -/
def execJump (nnn : Imm12) (s : State) : Outcome := .next (jumpTo s (immAddr nnn))

/-- CALL (R142): pushes the advanced `PC` and jumps; with `SP = 16` raises `StackOverflow`. -/
def execCall (nnn : Imm12) (s : State) : Outcome :=
  match push? s (nextPc s) with
  | none => raise .stackOverflow
  | some s' => .next (jumpTo s' (immAddr nnn))

/-- JUMP_OFFSET (R144): `PC <- NNN + V0`, not masked. -/
def execJumpOffset (nnn : Imm12) (s : State) : Outcome := .next (jumpTo s (offsetTarget s nnn))

/-- SKIP_EQ_IMM (R145). -/
def execSkipEqImm (x : RegIdx) (nn : Byte) (s : State) : Outcome := .next (skipIf (reg s x == nn) s)

/-- SKIP_NEQ_IMM (R146). -/
def execSkipNeqImm (x : RegIdx) (nn : Byte) (s : State) : Outcome := .next (skipIf (reg s x != nn) s)

/-- SKIP_EQ_REG (R147). -/
def execSkipEqReg (x y : RegIdx) (s : State) : Outcome := .next (skipIf (reg s x == reg s y) s)

/-- SKIP_NEQ_REG (R148). -/
def execSkipNeqReg (x y : RegIdx) (s : State) : Outcome := .next (skipIf (reg s x != reg s y) s)

end Sys2Proof.Machine
end

