-- ==== Sys2Proof/Machine/Display.lean ====
section
/-! DEFINITION. The meanings of spec/44_display.md: CLEAR and DRAW. -/

namespace Sys2Proof.Machine

/-- CLEAR (R210): every pixel 0, `DIRTY` 1, whatever was there. -/
def execClear (s : State) : Outcome := .next (advance (present s clearFb))

/-- DRAW under an edge policy (R211, R213): range check over all `N` rows first; then XOR compositing at
(`V[X] mod 64`, `V[Y] mod 32`), read before `VF` is written; `VF` the collision bit, `DIRTY` 1. -/
def drawWith (p : Config.EdgePolicy) (x y : RegIdx) (n : Fin 16) (s : State) : Outcome :=
  let sprite := readBytes s.mem (indexAddr s) n.val
  let drawn := composite s.fb (spriteLandings p (startColumn (reg s x)) (startRow (reg s y)) sprite)
  withRange (indexAddr s) n.val (.next (advance (setFlag (present s drawn.1) drawn.2)))

/-- DRAW (R211) under the policy taken. -/
def execDraw (x y : RegIdx) (n : Fin 16) (s : State) : Outcome := drawWith drawEdgePolicy x y n s

end Sys2Proof.Machine
end

