-- ==== Sys2Proof/Machine/IndexMemory.lean ====
section
/-! DEFINITION. The meanings of spec/43_index_memory.md: the index register, BCD, and the register dump and load. -/

namespace Sys2Proof.Machine

/-- SET_INDEX (R190): `I <- NNN`. -/
def execSetIndex (nnn : Imm12) (s : State) : Outcome := .next (advance (setI s (immAddr nnn)))

/-- ADD_INDEX (R191): `I <- I + V[X]` modulo 65536, no flag, no mask to 12 bits. -/
def execAddIndex (x : RegIdx) (s : State) : Outcome := .next (advance (setI s (indexPlus s (reg s x))))

/-- SET_INDEX_FONT (R192): `I <- V[X] * 5`, the whole byte. -/
def execSetIndexFont (x : RegIdx) (s : State) : Outcome := .next (advance (setI s (glyphAddr (reg s x))))

/-- STORE_BCD (R193): the three digits of `V[X]` to `I`, `I + 1`, `I + 2`; `I` stays. -/
def execStoreBcd (x : RegIdx) (s : State) : Outcome :=
  withRange (indexAddr s) 3 (.next (advance (storeBytes s (indexAddr s) (decimalDigits (reg s x)))))

/-- DUMP_REGS (R194): `V[0]` to `V[X]` to `I` to `I + X`, then `I <- I + X + 1`. -/
def execDumpRegs (x : RegIdx) (s : State) : Outcome :=
  withRange (indexAddr s) (x.val + 1) (.next (advance (bumpIndex (storeBytes s (indexAddr s) (regsUpTo s x)) x)))

/-- LOAD_REGS (R195): the bytes at `I` to `I + X` to `V[0]` to `V[X]`, then `I <- I + X + 1`. -/
def execLoadRegs (x : RegIdx) (s : State) : Outcome :=
  withRange (indexAddr s) (x.val + 1) (.next (advance (bumpIndex (loadRegsFrom s x (indexAddr s)) x)))

end Sys2Proof.Machine
end

