-- ==== Sys2Proof/Machine/KeypadTimers.lean ====
section
/-! DEFINITION. The meanings of spec/45_keypad_timers.md: the key skips, WAIT_KEY and the timer moves. -/

namespace Sys2Proof.Machine

/-- SKIP_KEY_DOWN (R230): skips when the key named by `V[X]` is down. -/
def execSkipKeyDown (x : RegIdx) (s : State) : Outcome := skipOnKey keySkipConsumes true x s

/-- SKIP_KEY_UP (R231): skips when the key named by `V[X]` is up. -/
def execSkipKeyUp (x : RegIdx) (s : State) : Outcome := skipOnKey keySkipConsumes false x s

/-- WAIT_KEY under a priority (R232): with no key down nothing changes, `PC` included; else `V[X] <- k`, `KEY[k] <- 0`
and `PC` advances. -/
def waitKeyWith (p : Config.KeyPriority) (x : RegIdx) (s : State) : Outcome :=
  match downKey? p s with
  | none => .next s
  | some k => .next (advance (setKey (setReg s x (BitVec.ofNat 8 k.val)) k false))

/-- WAIT_KEY (R232) under the priority taken. -/
def execWaitKey (x : RegIdx) (s : State) : Outcome := waitKeyWith waitKeyPriority x s

/-- GET_DELAY (R234): `V[X] <- DT`. -/
def execGetDelay (x : RegIdx) (s : State) : Outcome := .next (advance (setReg s x s.dt))

/-- SET_DELAY (R235): `DT <- V[X]`. -/
def execSetDelay (x : RegIdx) (s : State) : Outcome := .next (advance (setDt s (reg s x)))

/-- SET_SOUND (R236): `ST <- V[X]`; no sound event. -/
def execSetSound (x : RegIdx) (s : State) : Outcome := .next (advance (setSt s (reg s x)))

end Sys2Proof.Machine
end

