-- ==== Sys2Proof/Machine/Unknown.lean ====
section
/-! DEFINITION. The meaning of the decoder output UNKNOWN (spec/40_step_cycle.md R126). -/

namespace Sys2Proof.Machine

/-- UNKNOWN (R126): only `PC` advances; the event that reports the word is `instrEvent` of Machine/HostOps.lean. -/
def execUnknown (_w : Word) (s : State) : Outcome := .next (advance s)

end Sys2Proof.Machine
end

