-- ==== Sys2Proof/Machine/Step.lean ====
section
/-! DEFINITION. One step (spec/40_step_cycle.md R120): fetch, decode, execute; and the placing of one instruction
where the next step fetches it. -/

namespace Sys2Proof.Machine

/-- One step (R120): the fetch's error, or the meaning of the word fetched. The meanings advance `PC` themselves
(R122), so the step adds nothing around them. -/
def step (s : State) : Host.Outcome State Fault Refusal :=
  match fetch s with
  | .error f => raise f
  | .ok w => exec (decode w) s

/-- `s` with a table word stored at `PC` and `PC + 1`, where `step` fetches, high byte first (R64); the load of a
program stands for it (log entry 9). With `PC > 0xFFE` no word can be fetched and nothing is stored. -/
def State.withFetchWord (s : State) (nbits w : Nat) : State :=
  if inRange s.pc.toNat 2 then storeBytes s s.pc.toNat (tableWordBytes nbits w) else s

end Sys2Proof.Machine
end

