-- ==== Sys2Proof/Machine/HostOps.lean ====
section
/-! DEFINITION. The operations through which the host drives the core (spec/46_host_operations.md R250): each is
atomic, takes the inputs of its rule, and returns an outcome (spec/00_scope.md R11). `perform` is the whole machine:
one operation on a state gives the state after it and what the host is told. -/

namespace Sys2Proof.Machine

/-- An event that accompanies a completed operation and changes no state (R11, D19, D27). -/
inductive Event where
  /-- `unknown_opcode(w)`, from a step that met an UNKNOWN word (R126). -/
  | unknownOpcode (w : Word)
  /-- `sound_event`, from the tick that takes `ST` from 1 to 0 (R253, R258). -/
  | soundEvent
  deriving DecidableEq, Repr

/-- One operation with its inputs (R250). -/
inductive HostOp where
  /-- `initialize()` (R251). -/
  | init
  /-- `load_program(bytes)` (R252). -/
  | loadProgram (bytes : List Byte)
  /-- `step(rand)` (R120). -/
  | step (rand : Byte)
  /-- `tick_timers()` (R253). -/
  | tickTimers
  /-- `key_down(index)` (R254); the index input has four bits (D30). -/
  | keyDown (k : KeyIdx)
  /-- `key_up(index)` (R255). -/
  | keyUp (k : KeyIdx)
  /-- `framebuffer()` (R256). -/
  | framebuffer
  /-- `consume_dirty_flag()` (R257). -/
  | consumeDirtyFlag
  deriving DecidableEq, Repr

/-- What an operation returns to the host (R11, R250). -/
inductive Reply where
  /-- `Ok`, or `Ok` with an event. -/
  | ok (event : Option Event)
  /-- `Error(kind, info)`: the state is what it was (R281). -/
  | error (f : Fault)
  /-- The 2048 pixels, row-major: pixel (x, y) at `64 * y + x` (R256). -/
  | pixels (p : Vector Bool 2048)
  /-- The dirty flag before it was cleared (R257). -/
  | flag (b : Bool)
  /-- The step met an instruction the model gives no meaning; no instruction is one. -/
  | refused (r : Refusal)
  deriving DecidableEq, Repr

/-! ### Reset and load -/

/-- `initialize` (R251, R320): every item of state at its reset value (R35), whatever it was. The model's own count of
drawn random bytes runs on, so that a second run does not draw the first one's bytes again (log entry 1). -/
def initCore (s : State) : State := { State.reset with randDraws := s.randDraws }

/-- Where a program image is loaded (R252). -/
def programBase : Nat := 0x200

/-- The largest image, 3584 bytes (R6, R252). -/
def programMax : Nat := memSize - programBase

/-- `load_program` (R252): the image from 0x200 on and nothing else, or an error and nothing at all. -/
def loadProgram (bytes : List Byte) (s : State) : Except Fault State :=
  if bytes.length ≤ programMax then .ok (storeBytes s programBase bytes) else .error (.programTooLarge bytes.length)

/-! ### Timers -/

/-- A timer one tick on: one less, and never below 0 (R253). -/
def tickDown (t : Byte) : Byte := if t = 0 then 0 else t - 1

/-- `tick_timers` (R253): both timers one tick on, each on its own. -/
def tickTimers (s : State) : State := setSt (setDt s (tickDown s.dt)) (tickDown s.st)

/-- The sound event of a tick: exactly when `ST` was 1 (R253, R258). -/
def tickEvent (s : State) : Option Event := if s.st = 1 then some .soundEvent else none

/-! ### Display read-out -/

/-- `framebuffer` (R256): the pixels in row-major order. -/
def pixelsOf (fb : Framebuffer) : Vector Bool 2048 :=
  Vector.ofFn fun k : Fin 2048 =>
    pixel fb ⟨k.val % 64, Nat.mod_lt _ (by decide)⟩ ⟨k.val / 64, Nat.div_lt_of_lt_mul k.isLt⟩

/-- `DIRTY <- 0` (R257). -/
def clearDirty (s : State) : State := { s with dirty := false }

/-! ### Steps -/

/-- The meaning of an instruction when the host supplies the random byte: RAND takes it, every other kind ignores it
(R120, R172). -/
def execWith (byte : Byte) (i : Instr) (s : State) : Outcome :=
  match i with
  | .rand x nn => .next (randWith byte x nn s)
  | i => exec i s

/-- `step(rand)` (R120). -/
def stepWith (byte : Byte) (s : State) : Outcome :=
  match fetch s with
  | .error f => raise f
  | .ok w => execWith byte (decode w) s

/-- The event an instruction reports: `unknown_opcode(w)` for UNKNOWN, none for an executable kind (R125, R126). -/
def instrEvent (i : Instr) : Option Event :=
  match i with
  | .unknown w => some (.unknownOpcode w)
  | _ => none

/-- The event of a step that completes in `s` (R125). -/
def stepEvent (s : State) : Option Event :=
  match fetch s with
  | .error _ => none
  | .ok w => instrEvent (decode w)

/-- What the host sees of a step (R125, R281): the state committed and the event, or the error with the state as it
was. -/
def reportStep (s : State) (o : Outcome) : State × Reply :=
  match o with
  | .next t => (t, .ok (stepEvent s))
  | .fault f => (s, .error f)
  | .refused r => (s, .refused r)

/-! ### The machine -/

/-- One operation of the host (R250). -/
def perform (op : HostOp) (s : State) : State × Reply :=
  match op with
  | .init => (initCore s, .ok none)
  | .loadProgram bytes =>
    match loadProgram bytes s with
    | .ok t => (t, .ok none)
    | .error f => (s, .error f)
  | .step byte => reportStep s (stepWith byte s)
  | .tickTimers => (tickTimers s, .ok (tickEvent s))
  | .keyDown k => (setKey s k true, .ok none)
  | .keyUp k => (setKey s k false, .ok none)
  | .framebuffer => (s, .pixels (pixelsOf s.fb))
  | .consumeDirtyFlag => (clearDirty s, .flag s.dirty)

/-- A sequence of operations in the host's order (R70): the state after the last, and every reply. -/
def performAll : List HostOp → State → State × List Reply
  | [], s => (s, [])
  | op :: ops, s =>
    let (t, reply) := perform op s
    let (u, replies) := performAll ops t
    (u, reply :: replies)

end Sys2Proof.Machine
end

