-- ==== Sys2Proof/Machine/Ports.lean ====
section
/-! DEFINITION. The port names the spec offers for the operations (spec/46_host_operations.md R259, D25) and the error
codes (spec/60_exceptions.md R280, D26): the codes and the outputs as functions of an operation's reply. The
operations themselves are Machine/HostOps.lean; no rule depends on a port. -/

namespace Sys2Proof.Machine

/-- `op`, the operation select input (R259): 0 is none; `framebuffer` has no code, its port is always readable. -/
def opCode (op : HostOp) : Option (BitVec 4) :=
  match op with
  | .init => some 1
  | .loadProgram _ => some 2
  | .step _ => some 3
  | .tickTimers => some 4
  | .keyDown _ => some 5
  | .keyUp _ => some 6
  | .consumeDirtyFlag => some 7
  | .framebuffer => none

/-- The input ports with a request (R259). -/
structure PortIn where
  /-- `op`: operation select. -/
  op : BitVec 4
  /-- `rand`: the byte a step samples. -/
  rand : Byte
  /-- `key_index`. -/
  keyIndex : BitVec 4
  /-- `load_addr`: the offset of the byte being loaded. -/
  loadAddr : BitVec 12
  /-- `load_data`: the byte being loaded. -/
  loadData : Byte
  deriving DecidableEq, Repr

/-- The operation an encoded request selects (R259), its inputs read from their ports; none for 0, and for 2, which
presents one byte of a load and completes no operation alone. DESIGN CHOICE (log entry 24, safe): none for the codes 8
to 15, which R259 does not list. -/
def requested (p : PortIn) : Option HostOp :=
  match p.op.toNat with
  | 1 => some .init
  | 3 => some (.step p.rand)
  | 4 => some .tickTimers
  | 5 => some (.keyDown p.keyIndex.toFin)
  | 6 => some (.keyUp p.keyIndex.toFin)
  | 7 => some .consumeDirtyFlag
  | _ => none

/-- Whether the requests present the bytes of one load, `load_addr` rising by one from an offset on (DESIGN CHOICE, log
entry 22). -/
def loadsFrom (offset : Nat) : List PortIn → Bool
  | [] => true
  | p :: ps => p.op = 2 && p.loadAddr.toNat = offset && loadsFrom (offset + 1) ps

/-- The load that a run of byte requests presents, atomic as a whole (R259). DESIGN CHOICE (log entry 22, safe): R259 has
no length or end-of-image signal and gives the requests no order; a load is taken to be a contiguous run with
`load_addr` rising from 0, and the empty run to be the load of no bytes. -/
def requestedLoad (ps : List PortIn) : Option HostOp :=
  if loadsFrom 0 ps then some (.loadProgram (ps.map (·.loadData))) else none

/-- The error code of R280, 1 to 5; 0 stands for no error. -/
def errorCode (f : Fault) : BitVec 3 :=
  match f with
  | .programTooLarge _ => 1
  | .stackOverflow => 2
  | .stackUnderflow => 3
  | .memoryOutOfRange _ => 4
  | .keyIndexOutOfRange _ => 5

/-- The info reported with an error (R280) on the 16-bit port of R259. DESIGN CHOICE (log entry 10, safe): a length of
65536 or more is cut to the port's width. DEDUCED (log entry 25, safe): 0 for the two kinds with no info. -/
def errorInfo (f : Fault) : Word :=
  match f with
  | .programTooLarge n => BitVec.ofNat 16 n
  | .stackOverflow => 0
  | .stackUnderflow => 0
  | .memoryOutOfRange a => BitVec.ofNat 16 a
  | .keyIndexOutOfRange v => v.setWidth 16

/-- The output ports with a completing operation (R259). -/
structure PortOut where
  /-- `fb`: the framebuffer, always readable. -/
  fb : Vector Bool 2048
  /-- `dirty`: `DIRTY`; with a completing `consume_dirty_flag`, the value returned (DEDUCED, log entry 26, safe). -/
  dirty : Bool
  /-- `sound_event`. -/
  soundEvent : Bool
  /-- `unknown_opcode`: with the pulse, the word. DESIGN CHOICE (log entry 23, safe): with no pulse R259 states no word,
  and the model gives none. -/
  unknownOpcode : Option Word
  /-- `error`: code and info, 0 when none. -/
  error : BitVec 3 × Word
  deriving DecidableEq, Repr

/-- The output ports after an operation left `s` and replied `r` (R259). -/
def portOut (s : State) (r : Reply) : PortOut where
  fb := pixelsOf s.fb
  dirty := match r with
    | .flag b => b
    | _ => s.dirty
  soundEvent := r == .ok (some .soundEvent)
  unknownOpcode := match r with
    | .ok (some (.unknownOpcode w)) => some w
    | _ => none
  error := match r with
    | .error f => (errorCode f, errorInfo f)
    | _ => (0, 0)

end Sys2Proof.Machine
end

