-- ==== Sys2Proof/Safety.lean ====
section
/-! DEFINITION. The terms claims are stated in: the items of state and what it means to leave one unchanged, the
invariant of spec/10_state.md R37, the states the operations reach, and where a sprite's bits land. -/

namespace Sys2Proof.Machine

/-- An item of `State`: the eleven of R20, and the model's own counter. -/
inductive Item where
  | mem | v | i | pc | stack | sp | dt | st | key | fb | dirty | randDraws
  deriving DecidableEq, Repr

/-- Two states hold the same value of one item. Memory is compared through its read of one byte, at every address. -/
def SameItem (item : Item) (s t : State) : Prop :=
  match item with
  | .mem => ∀ a, byteAt t.mem a = byteAt s.mem a
  | .v => ∀ r, reg t r = reg s r
  | .i => t.i = s.i
  | .pc => t.pc = s.pc
  | .stack => t.stack = s.stack
  | .sp => t.sp = s.sp
  | .dt => t.dt = s.dt
  | .st => t.st = s.st
  | .key => ∀ k, keyIsDown t k = keyIsDown s k
  | .fb => ∀ x y, pixel t.fb x y = pixel s.fb x y
  | .dirty => t.dirty = s.dirty
  | .randDraws => t.randDraws = s.randDraws

/-- `t` differs from `s` in the listed items at most: the frame of an instruction. -/
def OnlyChanges (items : List Item) (s t : State) : Prop := ∀ item, item ∉ items → SameItem item s t

/-- Register `x` holds `value` afterwards and every other register what it held. -/
def RegAfter (s t : State) (x : RegIdx) (value : Byte) : Prop := ∀ r, reg t r = if r = x then value else reg s r

/-- `VF` holds `flag`, register `x` (if it is not `VF`) holds `value`, every other register what it held (R160). -/
def FlaggedAfter (s t : State) (x : RegIdx) (value flag : Byte) : Prop :=
  ∀ r, reg t r = if r = flagReg then flag else if r = x then value else reg s r

/-- The kinds that define a flag, and so write `VF` on every execution: exactly six (R23). -/
def flagKinds : List Kind := [.addReg, .subFwd, .subRev, .shiftRight, .shiftLeft, .draw]

/-- The kinds that write the register their field `X` names (R34, first row). -/
def registerKinds : List Kind :=
  [.setImm, .addImm, .setReg, .orReg, .andReg, .xorReg, .addReg, .subFwd, .subRev, .shiftRight, .shiftLeft, .rand,
   .getDelay, .waitKey]

/-- The register index in an instruction's field `X`, if its format has one (R92). -/
def fieldX (i : Instr) : Option RegIdx :=
  match i with
  | .clear | .ret | .jump _ | .call _ | .setIndex _ | .jumpOffset _ | .unknown _ => none
  | .skipEqImm x _ | .skipNeqImm x _ | .skipEqReg x _ | .skipNeqReg x _ | .setImm x _ | .addImm x _ | .setReg x _
  | .orReg x _ | .andReg x _ | .xorReg x _ | .addReg x _ | .subFwd x _ | .shiftRight x _ | .subRev x _
  | .shiftLeft x _ | .rand x _ | .draw x _ _ | .skipKeyDown x | .skipKeyUp x | .getDelay x | .waitKey x
  | .setDelay x | .setSound x | .addIndex x | .setIndexFont x | .storeBcd x | .dumpRegs x | .loadRegs x => some x

/-- The outcome `o` of an instruction on `s` is the error `f`: nothing is committed, and what the host is told is the
error with the state as it was (R281). -/
def Aborts (s : State) (o : Outcome) (f : Fault) : Prop := o = .fault f ∧ reportStep s o = (s, .error f)

/-- Which error an instruction raises in a state (R286): the condition and the info of R280, kind by kind. -/
def Raises (i : Instr) (s : State) (f : Fault) : Prop :=
  match i with
  | .call _ => s.sp.val = 16 ∧ f = .stackOverflow
  | .ret => s.sp.val = 0 ∧ f = .stackUnderflow
  | .draw _ _ n => 0 < n.val ∧ 0xFFF < s.i.toNat + n.val - 1 ∧ f = .memoryOutOfRange (max s.i.toNat 0x1000)
  | .storeBcd _ => 0xFFF < s.i.toNat + 2 ∧ f = .memoryOutOfRange (max s.i.toNat 0x1000)
  | .dumpRegs x => 0xFFF < s.i.toNat + x.val ∧ f = .memoryOutOfRange (max s.i.toNat 0x1000)
  | .loadRegs x => 0xFFF < s.i.toNat + x.val ∧ f = .memoryOutOfRange (max s.i.toNat 0x1000)
  | .skipKeyDown x => 15 < (reg s x).toNat ∧ f = .keyIndexOutOfRange (reg s x)
  | .skipKeyUp x => 15 < (reg s x).toNat ∧ f = .keyIndexOutOfRange (reg s x)
  | .clear | .jump _ | .skipEqImm _ _ | .skipNeqImm _ _ | .skipEqReg _ _ | .skipNeqReg _ _ | .setImm _ _
  | .addImm _ _ | .setReg _ _ | .orReg _ _ | .andReg _ _ | .xorReg _ _ | .addReg _ _ | .subFwd _ _
  | .shiftRight _ _ | .subRev _ _ | .shiftLeft _ _ | .setIndex _ | .jumpOffset _ | .rand _ _ | .getDelay _
  | .waitKey _ | .setDelay _ | .setSound _ | .addIndex _ | .setIndexFont _ | .unknown _ => False

/-- The invariant: of R37, `PC` at most 0x10FE and every stack entry in use at most 0x1000 (`SP` at most 16 and the byte
widths hold by the types of `State`); and of the model's own, memory in canonical form (DESIGN CHOICE, log entry 20). -/
structure StateInv (s : State) : Prop where
  mem : Memory.wf s.mem = true
  pc : s.pc.toNat ≤ 0x10FE
  stack : ∀ k : Fin 16, k.val < s.sp.val → (s.stack[k.val]).toNat ≤ 0x1000

/-- A state some sequence of operations, or of the host core's own steps, reaches from reset (R36, R70). -/
inductive Reachable : State → Prop where
  | reset : Reachable State.reset
  | perform {s : State} (op : HostOp) : Reachable s → Reachable (perform op s).1
  | step {s t : State} : Reachable s → step s = .next t → Reachable t

/-- Whether column `x`, row `y` of the sprite's own plane lands on screen place (`px`, `py`) (R213). -/
def LandsAt (p : Config.EdgePolicy) (x y : Nat) (px : Fin 64) (py : Fin 32) : Prop :=
  match p with
  | .clip => x = px.val ∧ y = py.val
  | .wrap => x % 64 = px.val ∧ y % 32 = py.val

/-- Whether a 1 bit of the `n`-row sprite at memory address `base`, drawn from (`x0`, `y0`), lands on (`px`, `py`):
bit `7 - c` of byte `r` lands from column `x0 + c`, row `y0 + r` (R211, R212). -/
def Hits (p : Config.EdgePolicy) (m : Memory) (base n x0 y0 : Nat) (px : Fin 64) (py : Fin 32) : Prop :=
  ∃ r < n, ∃ c < 8, (byteAt m (base + r)).getLsbD (7 - c) = true ∧ LandsAt p (x0 + c) (y0 + r) px py

/-- What DRAW does under a policy (R211), as its outcome `o` on `s`. In range: a pixel a 1 bit lands on is toggled and
every other kept; `VF` is 1 if one of them was set, else 0; `DIRTY` is 1; nothing else changes but `PC`. Out of range:
the error with the lowest offending address. -/
def DrawDoes (p : Config.EdgePolicy) (x y : RegIdx) (n : Fin 16) (s : State) (o : Outcome) : Prop :=
  let hit := Hits p s.mem s.i.toNat n.val ((reg s x).toNat % 64) ((reg s y).toNat % 32)
  (n.val = 0 ∨ s.i.toNat + n.val - 1 ≤ 0xFFF → ∃ t, o = .next t ∧
    (∀ px py, (hit px py → pixel t.fb px py = !pixel s.fb px py) ∧
      (¬hit px py → pixel t.fb px py = pixel s.fb px py)) ∧
    ((∃ px py, hit px py ∧ pixel s.fb px py = true) → RegAfter s t flagReg 1) ∧
    ((∀ px py, hit px py → pixel s.fb px py = false) → RegAfter s t flagReg 0) ∧
    t.dirty = true ∧ t.pc = s.pc + 2 ∧ OnlyChanges [.fb, .v, .dirty, .pc] s t) ∧
  (0 < n.val → 0xFFF < s.i.toNat + n.val - 1 → Aborts s o (.memoryOutOfRange (max s.i.toNat 0x1000)))

/-- What a key skip does (R230, R231, R233, R237), as its outcome `o` on `s`: on a key's index it skips when the key's
level is `level`, and under `consumes` the key ends up; above 15 it raises. -/
def KeySkipDoes (consumes level : Bool) (x : RegIdx) (s : State) (o : Outcome) : Prop :=
  (∀ k : KeyIdx, (reg s x).toNat = k.val → ∃ t, o = .next t ∧
    t.pc = (if keyIsDown s k = level then s.pc + 4 else s.pc + 2) ∧
    (∀ j, keyIsDown t j = if consumes = true ∧ j = k then false else keyIsDown s j) ∧ OnlyChanges [.pc, .key] s t) ∧
  (15 < (reg s x).toNat → Aborts s o (.keyIndexOutOfRange (reg s x)))

/-- What WAIT_KEY does under a priority (R232), as its outcome `o` on `s`: with no key down nothing changes; else the
reported key is the one the priority picks among those down, its index goes to `V[X]`, and it alone is cleared. -/
def WaitKeyDoes (p : Config.KeyPriority) (x : RegIdx) (s : State) (o : Outcome) : Prop :=
  ((∀ k, keyIsDown s k = false) → o = .next s) ∧
  (∀ k, keyIsDown s k = true →
    (∀ j, keyIsDown s j = true → match p with | .lowest => k ≤ j | .highest => j ≤ k) → ∃ t, o = .next t ∧
      RegAfter s t x (BitVec.ofNat 8 k.val) ∧ (∀ j, keyIsDown t j = if j = k then false else keyIsDown s j) ∧
      t.pc = s.pc + 2 ∧ OnlyChanges [.v, .key, .pc] s t)

end Sys2Proof.Machine
end

