-- ==== Sys2Proof/Certificates/Slice0/Obligations.lean ====
section
/-! DEFINITION. The statements for the provers, from the numbered rules of spec/, in the order of its files. A premise
`Memory.wf s.mem = true` is the memory part of the invariant `StateInv`, which `ResetMeetsInvariant` and
`StepKeepsInvariant` state on their own: in a memory not in canonical form, which no run reaches, a byte could be
listed twice. -/

open Sys2Proof Sys2Proof.Machine

/-! ### Encoding (30_encoding.md) -/

/-- Decoding the canonical word of a well-formed instruction gives it back, as a word (R96) and as two bytes in memory,
high byte first (R64, R90), whatever bytes follow. -/
def Obligations.DecodeOfEncode : Prop :=
  ∀ i : Instr, WellFormed i = true →
    decode (encode i) = i ∧ ∀ rest, decodeBytes (encodeBytes i ++ rest) = .ok (i, rest)

/-- R96: a word that matches a row of the opcode map decodes to the row's kind, a word that matches none to UNKNOWN with
the word kept, and no word matches two rows. -/
def Obligations.DecoderFollowsOpcodeMap : Prop :=
  ∀ w : Word,
    (∀ row ∈ opcodeRows, rowMatches row w = true → (decode w).kind = row.kind) ∧
    ((∀ row ∈ opcodeRows, rowMatches row w = false) → decode w = .unknown w) ∧
    (∀ row ∈ opcodeRows, ∀ row' ∈ opcodeRows, rowMatches row w = true → rowMatches row' w = true → row = row')

/-- R99: the UNKNOWN words are exactly those of the table, family by family, and each behaves the same way: only `PC`
moves on, and a host's step reports the word. -/
def Obligations.UnknownWordsAreExactlyReserved : Prop :=
  (∀ w : Word, (decode w).kind = .unknown ↔
    (wordFamily w = 0x0 ∧ wordN w ≠ 0x0 ∧ wordN w ≠ 0xE) ∨
    (wordFamily w = 0x8 ∧ 0x8 ≤ (wordN w).toNat ∧ wordN w ≠ 0xE) ∨
    (wordFamily w = 0xE ∧ wordNN w ≠ 0x9E ∧ wordNN w ≠ 0xA1) ∨
    (wordFamily w = 0xF ∧ wordNN w ∉ [0x07, 0x0A, 0x15, 0x18, 0x1E, 0x29, 0x33, 0x55, 0x65])) ∧
  (∀ (w : Word) (s : State), (decode w).kind = .unknown →
    exec (decode w) s = .next { s with pc := s.pc + 2 } ∧ instrEvent (decode w) = some (.unknownOpcode w))

/-- The decoder's outputs over all 65536 words are 52144 of an executable kind and 13392 UNKNOWN (the counts of R98, which
the spec marks as derived). -/
def Obligations.DecoderOutputCounts : Prop :=
  ((List.finRange 65536).countP fun k => (decode (BitVec.ofFin k)).kind != .unknown) = 52144 ∧
  ((List.finRange 65536).countP fun k => (decode (BitVec.ofFin k)).kind == .unknown) = 13392

/-- Every word decodes to a well-formed instruction, whose canonical word decodes to the same and agrees with the word in
every bit of `caredBits`. The model's choice (log entry 19): for SHIFT_RIGHT and SHIFT_LEFT that is every bit, so the
canonical word keeps `Y`, where R97 makes `Y` an ignored bit that is 0 in the canonical word. -/
def Obligations.DecodeDropsOnlyIgnoredBits : Prop :=
  ∀ w : Word,
    WellFormed (decode w) = true ∧ decode (encode (decode w)) = decode w ∧
    encode (decode w) &&& caredBits (decode w).kind = w &&& caredBits (decode w).kind

/-- The ignored bits are ignored by decode and by execute, and the canonical word has them as the pattern shows (R97, the
spec's decision D1). -/
def Obligations.IgnoredBitsAreIgnored : Prop :=
  (∀ middle : Byte, decode (0x0#4 ++ middle ++ 0x0#4) = .clear ∧ decode (0x0#4 ++ middle ++ 0xE#4) = .ret) ∧
  (∀ (x y : RegIdx) (n : Nibble),
    decode (0x5#4 ++ nibbleOf x ++ nibbleOf y ++ n) = .skipEqReg x y ∧
    decode (0x9#4 ++ nibbleOf x ++ nibbleOf y ++ n) = .skipNeqReg x y) ∧
  (∀ x y : RegIdx,
    decode (0x8#4 ++ nibbleOf x ++ nibbleOf y ++ 0x6#4) = .shiftRight x y ∧
    decode (0x8#4 ++ nibbleOf x ++ nibbleOf y ++ 0xE#4) = .shiftLeft x y ∧
    ∀ s, exec (.shiftRight x y) s = exec (.shiftRight x 0) s ∧ exec (.shiftLeft x y) s = exec (.shiftLeft x 0) s) ∧
  encode .clear = 0x00E0 ∧ encode .ret = 0x00EE ∧
  (∀ x y : RegIdx,
    encode (.skipEqReg x y) = 0x5#4 ++ nibbleOf x ++ nibbleOf y ++ 0x0#4 ∧
    encode (.skipNeqReg x y) = 0x9#4 ++ nibbleOf x ++ nibbleOf y ++ 0x0#4 ∧
    encode (.shiftRight x 0) = 0x8#4 ++ nibbleOf x ++ 0x0#4 ++ 0x6#4 ∧
    encode (.shiftLeft x 0) = 0x8#4 ++ nibbleOf x ++ 0x0#4 ++ 0xE#4)

/-- Words written out from the encodings decode to the instructions they stand for (95_test_vectors.md 2.1). -/
def Obligations.SampleWordsDecode : Prop :=
  decode 0x00E0 = .clear ∧ decode 0x0ABE = .ret ∧ decode 0x1ABC = .jump 0xABC ∧ decode 0x5AB7 = .skipEqReg 0xA 0xB ∧
  decode 0x6005 = .setImm 0 0x05 ∧ decode 0x8014 = .addReg 0 1 ∧ decode 0xA2F0 = .setIndex 0x2F0 ∧
  decode 0xD5A3 = .draw 5 0xA 3 ∧ decode 0xE29E = .skipKeyDown 2 ∧ decode 0xF40A = .waitKey 4 ∧
  decode 0xF265 = .loadRegs 2 ∧ decode 0x8AB8 = .unknown 0x8AB8

/-! ### The step cycle (40_step_cycle.md) and errors (60_exceptions.md) -/

/-- A step runs the decoded instruction: when the two bytes at `PC` decode to `i`, the core's step is exactly `exec i`,
and the host's step with a byte is `execWith` of it; neither adds anything around the meaning. -/
def Obligations.StepRunsDecodedInstruction : Prop :=
  ∀ (s : State) (i : Instr), s.pc.toNat ≤ 0xFFE →
    decodeBytes [byteAt s.mem s.pc.toNat, byteAt s.mem (s.pc.toNat + 1)] = .ok (i, []) →
    WellFormed i = true ∧ step s = exec i s ∧ ∀ byte, stepWith byte s = execWith byte i s

/-- With `PC > 0xFFE` a step raises `MemoryOutOfRange` with `PC` and changes nothing, and so does every later step until
the host resets the core (R121, the spec's decision D7). -/
def Obligations.FetchOutOfRangeRaises : Prop :=
  ∀ s : State, 0xFFE < s.pc.toNat →
    step s = .fault (.memoryOutOfRange s.pc.toNat) ∧
    (∀ byte, perform (.step byte) s = (s, .error (.memoryOutOfRange s.pc.toNat))) ∧
    ∀ (ops : List HostOp) (byte : Byte), HostOp.init ∉ ops →
      perform (.step byte) (performAll ops s).1 =
        ((performAll ops s).1, .error (.memoryOutOfRange s.pc.toNat))

/-- An UNKNOWN word commits `PC + 2`, writes nothing else, and reports the word (R126; that the report is an event is the
spec's decision D27). -/
def Obligations.UnknownIsNoOperation : Prop :=
  (∀ (w : Word) (s : State), exec (.unknown w) s = .next { s with pc := s.pc + 2 }) ∧
  (∀ (w : Word) (s : State) (byte : Byte), isUnknownWord w = true → s.pc.toNat ≤ 0xFFE →
    byteAt s.mem s.pc.toNat ++ byteAt s.mem (s.pc.toNat + 1) = w →
    perform (.step byte) s = ({ s with pc := s.pc + 2 }, .ok (some (.unknownOpcode w))))

/-- R125: a step ends in `Ok` after an executable kind, in `Ok` with `unknown_opcode(w)` after an UNKNOWN word `w`, or in
one of four errors, and in nothing else. -/
def Obligations.StepOutcomesAreClosed : Prop :=
  (∀ (s : State) (r : Refusal), step s ≠ .refused r) ∧
  (∀ (s : State) (n : Nat), step s ≠ .fault (.programTooLarge n)) ∧
  ∀ (s : State) (byte : Byte),
    let reply := (perform (.step byte) s).2
    (reply = .ok none ∧ ∃ w, fetch s = .ok w ∧ (decode w).kind ≠ .unknown) ∨
    (∃ w, reply = .ok (some (.unknownOpcode w)) ∧ fetch s = .ok w ∧ (decode w).kind = .unknown) ∨
    (∃ addr, reply = .error (.memoryOutOfRange addr)) ∨ reply = .error .stackOverflow ∨
    reply = .error .stackUnderflow ∨ ∃ v, reply = .error (.keyIndexOutOfRange v)

/-- The core's step is the host's step with a free byte: it ends in the same error, or in the same state but for the
model's count of drawn bytes. -/
def Obligations.CoreStepIsHostStepWithFreeByte : Prop :=
  ∀ s : State,
    (∀ f, step s = .fault f ↔ stepWith (Config.randByte s.randDraws) s = .fault f) ∧
    (∀ t, step s = .next t → ∃ u, stepWith (Config.randByte s.randDraws) s = .next u ∧
      OnlyChanges [.randDraws] u t ∧ u.randDraws = s.randDraws) ∧
    (∀ u, stepWith (Config.randByte s.randDraws) s = .next u → ∃ t, step s = .next t ∧ OnlyChanges [.randDraws] u t)

/-- Which instruction raises what, and that no operation but a step and `load_program` raises anything (R286, which the
spec marks as derived; the infos are those of R280). -/
def Obligations.ErrorsRaisedExactly : Prop :=
  (∀ (i : Instr) (s : State) (f : Fault), exec i s = .fault f ↔ Raises i s f) ∧
  (∀ (s : State) (f : Fault), step s = .fault f ↔
    (0xFFE < s.pc.toNat ∧ f = .memoryOutOfRange s.pc.toNat) ∨
    (s.pc.toNat ≤ 0xFFE ∧ Raises (decode (byteAt s.mem s.pc.toNat ++ byteAt s.mem (s.pc.toNat + 1))) s f)) ∧
  (∀ (op : HostOp) (s : State) (f : Fault), (perform op s).2 = .error f →
    (∃ byte, op = .step byte) ∨
    ∃ bytes, op = .loadProgram bytes ∧ 3584 < bytes.length ∧ f = .programTooLarge bytes.length)

/-- An operation that raises an error leaves the whole state as it was (R281; that not even `PC` advances is the spec's
decision D3). -/
def Obligations.ErrorLeavesStateUnchanged : Prop :=
  ∀ (op : HostOp) (s : State) (f : Fault), (perform op s).2 = .error f → (perform op s).1 = s

/-- A step's error recurs: ignored, the same error comes of the next step, whatever random byte is supplied with it. -/
def Obligations.StepErrorRecurs : Prop :=
  ∀ (s s' : State) (byte byte' : Byte) (f : Fault),
    perform (.step byte) s = (s', .error f) → perform (.step byte') s' = (s', .error f)

/-! ### Control flow (41_control_flow.md) -/

/-- R141: JUMP. -/
def Obligations.JumpResult : Prop :=
  ∀ (nnn : Imm12) (s : State),
    decode (0x1#4 ++ nnn) = .jump nnn ∧
    (∃ t, exec (.jump nnn) s = .next t ∧ t.pc = nnn.setWidth 16 ∧ OnlyChanges [.pc] s t) ∧
    (s.pc = nnn.setWidth 16 → exec (.jump nnn) s = .next s)

/-- R142: CALL. -/
def Obligations.CallResult : Prop :=
  ∀ (nnn : Imm12) (s : State),
    decode (0x2#4 ++ nnn) = .call nnn ∧
    (s.sp.val < 16 → ∃ t, exec (.call nnn) s = .next t ∧ t.pc = nnn.setWidth 16 ∧ t.sp.val = s.sp.val + 1 ∧
      (∀ k : Fin 16, t.stack[k.val] = if k.val = s.sp.val then s.pc + 2 else s.stack[k.val]) ∧
      OnlyChanges [.pc, .sp, .stack] s t) ∧
    (s.sp.val = 16 → Aborts s (exec (.call nnn) s) .stackOverflow)

/-- R143: RETURN. -/
def Obligations.ReturnResult : Prop :=
  (∀ middle : Byte, decode (0x0#4 ++ middle ++ 0xE#4) = .ret) ∧
  ∀ s : State,
    (0 < s.sp.val → ∃ t, exec .ret s = .next t ∧ t.sp.val + 1 = s.sp.val ∧
      (∃ k : Fin 16, k.val + 1 = s.sp.val ∧ t.pc = s.stack[k.val]) ∧ OnlyChanges [.pc, .sp] s t) ∧
    (s.sp.val = 0 → Aborts s (exec .ret s) .stackUnderflow)

/-- CALL and then RETURN: `PC` is the address after the CALL, `SP` is what it was, and of the rest only the one stack
entry the CALL used differs (95_test_vectors.md S7). -/
def Obligations.CallThenReturn : Prop :=
  ∀ (nnn : Imm12) (s : State), s.sp.val < 16 → ∃ t u,
    exec (.call nnn) s = .next t ∧ exec .ret t = .next u ∧ u.pc = s.pc + 2 ∧ u.sp = s.sp ∧
    (∀ k : Fin 16, k.val ≠ s.sp.val → u.stack[k.val] = s.stack[k.val]) ∧ OnlyChanges [.pc, .stack] s u

/-- JUMP_OFFSET, the sum never masked (R144; that the offset is V0 is the spec's decision D12). -/
def Obligations.JumpOffsetResult : Prop :=
  ∀ (nnn : Imm12) (s : State),
    decode (0xB#4 ++ nnn) = .jumpOffset nnn ∧
    ∃ t, exec (.jumpOffset nnn) s = .next t ∧ t.pc.toNat = nnn.toNat + (reg s 0).toNat ∧ t.pc.toNat ≤ 0x10FE ∧
      OnlyChanges [.pc] s t

/-- R145 to R148: the four compare-and-skip instructions. -/
def Obligations.CompareSkipsResult : Prop :=
  ∀ (x y : RegIdx) (nn : Byte) (n : Nibble) (s : State),
    decode (0x3#4 ++ nibbleOf x ++ nn) = .skipEqImm x nn ∧ decode (0x4#4 ++ nibbleOf x ++ nn) = .skipNeqImm x nn ∧
    decode (0x5#4 ++ nibbleOf x ++ nibbleOf y ++ n) = .skipEqReg x y ∧
    decode (0x9#4 ++ nibbleOf x ++ nibbleOf y ++ n) = .skipNeqReg x y ∧
    (∃ t, exec (.skipEqImm x nn) s = .next t ∧ t.pc = (if reg s x = nn then s.pc + 4 else s.pc + 2) ∧
      OnlyChanges [.pc] s t) ∧
    (∃ t, exec (.skipNeqImm x nn) s = .next t ∧ t.pc = (if reg s x = nn then s.pc + 2 else s.pc + 4) ∧
      OnlyChanges [.pc] s t) ∧
    (∃ t, exec (.skipEqReg x y) s = .next t ∧ t.pc = (if reg s x = reg s y then s.pc + 4 else s.pc + 2) ∧
      OnlyChanges [.pc] s t) ∧
    (∃ t, exec (.skipNeqReg x y) s = .next t ∧ t.pc = (if reg s x = reg s y then s.pc + 2 else s.pc + 4) ∧
      OnlyChanges [.pc] s t)

/-! ### Register arithmetic and logic (42_alu.md) -/

/-- R161, R162: SET_IMM and ADD_IMM, neither of them a flag writer. -/
def Obligations.ImmediateMovesResult : Prop :=
  ∀ (x : RegIdx) (nn : Byte) (s : State),
    decode (0x6#4 ++ nibbleOf x ++ nn) = .setImm x nn ∧ decode (0x7#4 ++ nibbleOf x ++ nn) = .addImm x nn ∧
    (∃ t, exec (.setImm x nn) s = .next t ∧ RegAfter s t x nn ∧ t.pc = s.pc + 2 ∧ OnlyChanges [.v, .pc] s t) ∧
    (∃ t, exec (.addImm x nn) s = .next t ∧
      RegAfter s t x (BitVec.ofNat 8 (((reg s x).toNat + nn.toNat) % 256)) ∧ t.pc = s.pc + 2 ∧
      OnlyChanges [.v, .pc] s t)

/-- SET_REG, OR, AND and XOR, the results bit by bit, none of them a flag writer (R163 to R166; that the last three leave
`VF` alone is the spec's decision D11). -/
def Obligations.CopyAndLogicResult : Prop :=
  ∀ (x y : RegIdx) (s : State),
    decode (0x8#4 ++ nibbleOf x ++ nibbleOf y ++ 0x0#4) = .setReg x y ∧
    decode (0x8#4 ++ nibbleOf x ++ nibbleOf y ++ 0x1#4) = .orReg x y ∧
    decode (0x8#4 ++ nibbleOf x ++ nibbleOf y ++ 0x2#4) = .andReg x y ∧
    decode (0x8#4 ++ nibbleOf x ++ nibbleOf y ++ 0x3#4) = .xorReg x y ∧
    (∃ t, exec (.setReg x y) s = .next t ∧ RegAfter s t x (reg s y) ∧ t.pc = s.pc + 2 ∧ OnlyChanges [.v, .pc] s t) ∧
    (∃ t, exec (.orReg x y) s = .next t ∧ (∀ r, r ≠ x → reg t r = reg s r) ∧
      (∀ b < 8, (reg t x).getLsbD b = ((reg s x).getLsbD b || (reg s y).getLsbD b)) ∧ t.pc = s.pc + 2 ∧
      OnlyChanges [.v, .pc] s t) ∧
    (∃ t, exec (.andReg x y) s = .next t ∧ (∀ r, r ≠ x → reg t r = reg s r) ∧
      (∀ b < 8, (reg t x).getLsbD b = ((reg s x).getLsbD b && (reg s y).getLsbD b)) ∧ t.pc = s.pc + 2 ∧
      OnlyChanges [.v, .pc] s t) ∧
    (∃ t, exec (.xorReg x y) s = .next t ∧ (∀ r, r ≠ x → reg t r = reg s r) ∧
      (∀ b < 8, (reg t x).getLsbD b = ((reg s x).getLsbD b ^^ (reg s y).getLsbD b)) ∧ t.pc = s.pc + 2 ∧
      OnlyChanges [.v, .pc] s t)

/-- R167: ADD_REG, the carry from the exact sum. -/
def Obligations.AddRegResult : Prop :=
  ∀ (x y : RegIdx) (s : State),
    decode (0x8#4 ++ nibbleOf x ++ nibbleOf y ++ 0x4#4) = .addReg x y ∧
    ∃ t, exec (.addReg x y) s = .next t ∧
      FlaggedAfter s t x (BitVec.ofNat 8 (((reg s x).toNat + (reg s y).toNat) % 256))
        (if 255 < (reg s x).toNat + (reg s y).toNat then 1 else 0) ∧
      t.pc = s.pc + 2 ∧ OnlyChanges [.v, .pc] s t

/-- R168, R170: SUB_FWD and SUB_REV, the flag 1 when there is no borrow, equality included. -/
def Obligations.SubtractsResult : Prop :=
  ∀ (x y : RegIdx) (s : State),
    decode (0x8#4 ++ nibbleOf x ++ nibbleOf y ++ 0x5#4) = .subFwd x y ∧
    decode (0x8#4 ++ nibbleOf x ++ nibbleOf y ++ 0x7#4) = .subRev x y ∧
    (∃ t, exec (.subFwd x y) s = .next t ∧
      FlaggedAfter s t x (BitVec.ofNat 8 (((reg s x).toNat + 256 - (reg s y).toNat) % 256))
        (if (reg s y).toNat ≤ (reg s x).toNat then 1 else 0) ∧
      t.pc = s.pc + 2 ∧ OnlyChanges [.v, .pc] s t) ∧
    (∃ t, exec (.subRev x y) s = .next t ∧
      FlaggedAfter s t x (BitVec.ofNat 8 (((reg s y).toNat + 256 - (reg s x).toNat) % 256))
        (if (reg s x).toNat ≤ (reg s y).toNat then 1 else 0) ∧
      t.pc = s.pc + 2 ∧ OnlyChanges [.v, .pc] s t)

/-- R169, R171: SHIFT_RIGHT and SHIFT_LEFT, in place, `Y` unused, the flag the bit shifted out. -/
def Obligations.ShiftsResult : Prop :=
  ∀ (x y : RegIdx) (s : State),
    decode (0x8#4 ++ nibbleOf x ++ nibbleOf y ++ 0x6#4) = .shiftRight x y ∧
    decode (0x8#4 ++ nibbleOf x ++ nibbleOf y ++ 0xE#4) = .shiftLeft x y ∧
    (∃ t, exec (.shiftRight x y) s = .next t ∧
      FlaggedAfter s t x (reg s x >>> 1) (if (reg s x).getLsbD 0 then 1 else 0) ∧
      t.pc = s.pc + 2 ∧ OnlyChanges [.v, .pc] s t) ∧
    (∃ t, exec (.shiftLeft x y) s = .next t ∧
      FlaggedAfter s t x (reg s x <<< 1) (if (reg s x).getLsbD 7 then 1 else 0) ∧
      t.pc = s.pc + 2 ∧ OnlyChanges [.v, .pc] s t)

/-- RAND, for every byte the host supplies (R172; that the byte is an input is the spec's decision D17), and for the free
byte of the core's own step (the model's, log entry 1); every other kind ignores the byte. -/
def Obligations.RandResult : Prop :=
  (∀ (x : RegIdx) (nn byte : Byte) (s : State),
    decode (0xC#4 ++ nibbleOf x ++ nn) = .rand x nn ∧
    (∃ t, execWith byte (.rand x nn) s = .next t ∧ RegAfter s t x (byte &&& nn) ∧ t.pc = s.pc + 2 ∧
      OnlyChanges [.v, .pc] s t) ∧
    (∃ t, exec (.rand x nn) s = .next t ∧ RegAfter s t x (Config.randByte s.randDraws &&& nn) ∧ t.pc = s.pc + 2 ∧
      t.randDraws = s.randDraws + 1 ∧ OnlyChanges [.v, .pc, .randDraws] s t)) ∧
  (∀ (byte byte' : Byte) (i : Instr) (s : State), i.kind ≠ .rand → execWith byte i s = execWith byte' i s)

/-! ### The index register and memory (43_index_memory.md) -/

/-- SET_INDEX, ADD_INDEX and SET_INDEX_FONT (R190 to R192): no flag and no mask to 12 bits (the spec's decision D8), no
reduction of the digit (D21). -/
def Obligations.IndexWritesResult : Prop :=
  ∀ (nnn : Imm12) (x : RegIdx) (s : State),
    decode (0xA#4 ++ nnn) = .setIndex nnn ∧ decode (0xF#4 ++ nibbleOf x ++ 0x1E#8) = .addIndex x ∧
    decode (0xF#4 ++ nibbleOf x ++ 0x29#8) = .setIndexFont x ∧
    (∃ t, exec (.setIndex nnn) s = .next t ∧ t.i.toNat = nnn.toNat ∧ t.pc = s.pc + 2 ∧ OnlyChanges [.i, .pc] s t) ∧
    (∃ t, exec (.addIndex x) s = .next t ∧ t.i.toNat = (s.i.toNat + (reg s x).toNat) % 65536 ∧ t.pc = s.pc + 2 ∧
      OnlyChanges [.i, .pc] s t) ∧
    (∃ t, exec (.setIndexFont x) s = .next t ∧ t.i.toNat = (reg s x).toNat * 5 ∧ t.pc = s.pc + 2 ∧
      OnlyChanges [.i, .pc] s t)

/-- R193: STORE_BCD. -/
def Obligations.StoreBcdResult : Prop :=
  ∀ (x : RegIdx) (s : State),
    decode (0xF#4 ++ nibbleOf x ++ 0x33#8) = .storeBcd x ∧
    (Memory.wf s.mem = true → s.i.toNat + 2 ≤ 0xFFF → ∃ t, exec (.storeBcd x) s = .next t ∧
      (byteAt t.mem s.i.toNat).toNat = (reg s x).toNat / 100 ∧
      (byteAt t.mem (s.i.toNat + 1)).toNat = (reg s x).toNat / 10 % 10 ∧
      (byteAt t.mem (s.i.toNat + 2)).toNat = (reg s x).toNat % 10 ∧
      (∀ a, a < s.i.toNat ∨ s.i.toNat + 2 < a → byteAt t.mem a = byteAt s.mem a) ∧
      t.pc = s.pc + 2 ∧ OnlyChanges [.mem, .pc] s t) ∧
    (0xFFF < s.i.toNat + 2 → Aborts s (exec (.storeBcd x) s) (.memoryOutOfRange (max s.i.toNat 0x1000)))

/-- R194: DUMP_REGS. -/
def Obligations.DumpRegsResult : Prop :=
  ∀ (x : RegIdx) (s : State),
    decode (0xF#4 ++ nibbleOf x ++ 0x55#8) = .dumpRegs x ∧
    (Memory.wf s.mem = true → s.i.toNat + x.val ≤ 0xFFF → ∃ t, exec (.dumpRegs x) s = .next t ∧
      (∀ r : RegIdx, r ≤ x → byteAt t.mem (s.i.toNat + r.val) = reg s r) ∧
      (∀ a, a < s.i.toNat ∨ s.i.toNat + x.val < a → byteAt t.mem a = byteAt s.mem a) ∧
      t.i.toNat = s.i.toNat + x.val + 1 ∧ t.pc = s.pc + 2 ∧ OnlyChanges [.mem, .i, .pc] s t) ∧
    (0xFFF < s.i.toNat + x.val → Aborts s (exec (.dumpRegs x) s) (.memoryOutOfRange (max s.i.toNat 0x1000)))

/-- R195: LOAD_REGS. -/
def Obligations.LoadRegsResult : Prop :=
  ∀ (x : RegIdx) (s : State),
    decode (0xF#4 ++ nibbleOf x ++ 0x65#8) = .loadRegs x ∧
    (s.i.toNat + x.val ≤ 0xFFF → ∃ t, exec (.loadRegs x) s = .next t ∧
      (∀ r : RegIdx, reg t r = if r ≤ x then byteAt s.mem (s.i.toNat + r.val) else reg s r) ∧
      t.i.toNat = s.i.toNat + x.val + 1 ∧ t.pc = s.pc + 2 ∧ OnlyChanges [.v, .i, .pc] s t) ∧
    (0xFFF < s.i.toNat + x.val → Aborts s (exec (.loadRegs x) s) (.memoryOutOfRange (max s.i.toNat 0x1000)))

/-- A store into the instruction stream is seen by the very next fetch: a DUMP_REGS of at least two registers onto the
word after it makes `V0`, `V1` the next instruction executed (R72). -/
def Obligations.StoredWordIsFetchedNext : Prop :=
  ∀ (x : RegIdx) (s : State), Memory.wf s.mem = true → 1 ≤ x.val → s.i = s.pc + 2 → s.i.toNat + x.val ≤ 0xFFF →
    ∃ t, exec (.dumpRegs x) s = .next t ∧ step t = exec (decode (reg s 0 ++ reg s 1)) t

/-! ### The display (44_display.md) -/

/-- R210: CLEAR. -/
def Obligations.ClearResult : Prop :=
  (∀ middle : Byte, decode (0x0#4 ++ middle ++ 0x0#4) = .clear) ∧
  ∀ s : State, ∃ t, exec .clear s = .next t ∧ (∀ x y, pixel t.fb x y = false) ∧ t.dirty = true ∧ t.pc = s.pc + 2 ∧
    OnlyChanges [.fb, .dirty, .pc] s t

/-- DRAW, under either edge policy, and the instruction itself under the policy taken (R211 to R213; the spec's decisions
D13 for the policy and D14 for the range check; log entry 2). -/
def Obligations.DrawResult : Prop :=
  ∀ (x y : RegIdx) (n : Fin 16) (s : State),
    decode (0xD#4 ++ nibbleOf x ++ nibbleOf y ++ nibbleOf n) = .draw x y n ∧
    (∀ p, DrawDoes p x y n s (drawWith p x y n s)) ∧ DrawDoes drawEdgePolicy x y n s (exec (.draw x y n) s)

/-- Drawing twice, and what one draw does to the pixels as a whole (section 3 of 44_display.md). With the same position
registers after the first draw as before it, the second draw succeeds, leaves the framebuffer as it was before the
first, and sets `VF` to 1 exactly when some landing bit met a clear pixel the first time; the first draw sets `VF` to 1
exactly when some landing bit met a set pixel; and the number of set pixels changes by the bits landed on clear pixels
less the bits landed on set ones. Where R214 (b) leaves the pixels' state out, this follows R211's corner case. -/
def Obligations.DrawTwiceRestores : Prop :=
  ∀ (p : Config.EdgePolicy) (x y : RegIdx) (n : Fin 16) (s t : State),
    drawWith p x y n s = .next t → reg t x = reg s x → reg t y = reg s y →
    let hit := Hits p s.mem s.i.toNat n.val ((reg s x).toNat % 64) ((reg s y).toNat % 32)
    (reg t flagReg = 1 ↔ ∃ px py, hit px py ∧ pixel s.fb px py = true) ∧
    Set.ncard { q : Place | pixel t.fb q.1 q.2 = true } +
        Set.ncard { q : Place | hit q.1 q.2 ∧ pixel s.fb q.1 q.2 = true } =
      Set.ncard { q : Place | pixel s.fb q.1 q.2 = true } +
        Set.ncard { q : Place | hit q.1 q.2 ∧ pixel s.fb q.1 q.2 = false } ∧
    ∃ u, drawWith p x y n t = .next u ∧ (∀ px py, pixel u.fb px py = pixel s.fb px py) ∧
      (reg u flagReg = 1 ↔ ∃ px py, hit px py ∧ pixel s.fb px py = false)

/-! ### The keypad and the timers (45_keypad_timers.md) -/

/-- The key skips, under either consumption policy, and the instructions themselves under the policy taken (R230, R231,
R233, R237; the spec's decisions D15 for the policy and D5 for the key index; log entry 3). -/
def Obligations.KeySkipsResult : Prop :=
  ∀ (x : RegIdx) (s : State),
    decode (0xE#4 ++ nibbleOf x ++ 0x9E#8) = .skipKeyDown x ∧ decode (0xE#4 ++ nibbleOf x ++ 0xA1#8) = .skipKeyUp x ∧
    (∀ consumes level, KeySkipDoes consumes level x s (skipOnKey consumes level x s)) ∧
    KeySkipDoes keySkipConsumes true x s (exec (.skipKeyDown x) s) ∧
    KeySkipDoes keySkipConsumes false x s (exec (.skipKeyUp x) s)

/-- WAIT_KEY, under either priority, and the instruction itself under the priority taken (R232; the spec's decision D16 for
the priority; log entry 4). -/
def Obligations.WaitKeyResult : Prop :=
  ∀ (x : RegIdx) (s : State),
    decode (0xF#4 ++ nibbleOf x ++ 0x0A#8) = .waitKey x ∧
    (∀ p, WaitKeyDoes p x s (waitKeyWith p x s)) ∧ WaitKeyDoes waitKeyPriority x s (exec (.waitKey x) s)

/-- GET_DELAY, SET_DELAY and SET_SOUND (R234, R235, R236). That SET_SOUND gives no sound event, the other part of R236, is
`SoundEventOnlyFromTick`. -/
def Obligations.TimerMovesResult : Prop :=
  ∀ (x : RegIdx) (s : State),
    decode (0xF#4 ++ nibbleOf x ++ 0x07#8) = .getDelay x ∧ decode (0xF#4 ++ nibbleOf x ++ 0x15#8) = .setDelay x ∧
    decode (0xF#4 ++ nibbleOf x ++ 0x18#8) = .setSound x ∧
    (∃ t, exec (.getDelay x) s = .next t ∧ RegAfter s t x s.dt ∧ t.pc = s.pc + 2 ∧ OnlyChanges [.v, .pc] s t) ∧
    (∃ t, exec (.setDelay x) s = .next t ∧ t.dt = reg s x ∧ t.pc = s.pc + 2 ∧ OnlyChanges [.dt, .pc] s t) ∧
    (∃ t, exec (.setSound x) s = .next t ∧ t.st = reg s x ∧ t.pc = s.pc + 2 ∧ OnlyChanges [.st, .pc] s t)

/-! ### The host's operations (46_host_operations.md) -/

/-- `initialize` never fails, gives every item of state its reset value whatever it was, and doing it twice is doing it
once (R251, R35; the spec's decisions D18 for `DIRTY` and D23 for a running core). The model's own draw count runs on. -/
def Obligations.InitGivesResetState : Prop :=
  ∀ s : State, ∃ t, perform .init s = (t, .ok none) ∧ perform .init t = (t, .ok none) ∧
    (∀ a < 0x1000, byteAt t.mem a = if a < 0x50 then font.getD a 0 else 0) ∧ (∀ r, reg t r = 0) ∧
    t.i = 0 ∧ t.pc = 0x200 ∧ t.sp = 0 ∧ (∀ k : Fin 16, t.stack[k.val] = 0) ∧ t.dt = 0 ∧ t.st = 0 ∧
    (∀ k, keyIsDown t k = false) ∧ (∀ x y, pixel t.fb x y = false) ∧ t.dirty = false ∧
    t.randDraws = s.randDraws ∧ OnlyChanges [.randDraws] State.reset t

/-- `load_program` (R252; that a failed load copies nothing is the spec's decisions D3 and D24). -/
def Obligations.LoadProgramResult : Prop :=
  ∀ (bytes : List Byte) (s : State),
    (Memory.wf s.mem = true → bytes.length ≤ 3584 → ∃ t, perform (.loadProgram bytes) s = (t, .ok none) ∧
      (∀ k (h : k < bytes.length), byteAt t.mem (0x200 + k) = bytes[k]) ∧
      (∀ a, a < 0x200 ∨ 0x200 + bytes.length ≤ a → byteAt t.mem a = byteAt s.mem a) ∧ OnlyChanges [.mem] s t) ∧
    (3584 < bytes.length → perform (.loadProgram bytes) s = (s, .error (.programTooLarge bytes.length)))

/-- Boot: after `initialize` and a load, whatever the state was before, the first step executes the first word of the
image, high byte first, from 0x200 (R321, R323). -/
def Obligations.BootRunsFirstWord : Prop :=
  ∀ (hi lo : Byte) (rest : List Byte) (s : State), rest.length + 2 ≤ 3584 →
    let t := (performAll [.init, .loadProgram (hi :: lo :: rest)] s).1
    t.pc = 0x200 ∧ step t = exec (decode (hi ++ lo)) t

/-- R253: one tick. -/
def Obligations.TickTimersResult : Prop :=
  ∀ s : State, ∃ t, perform .tickTimers s = (t, .ok (if s.st = 1 then some .soundEvent else none)) ∧
    t.dt.toNat = s.dt.toNat - 1 ∧ t.st.toNat = s.st.toNat - 1 ∧ OnlyChanges [.dt, .st] s t

/-- `n` ticks take each timer down by `n` and never below 0, change nothing else, and give the sound event exactly once
if `ST` reaches 0 among them, and never otherwise (R253, R258; 95_test_vectors.md S9). -/
def Obligations.TimersRunDown : Prop :=
  ∀ (n : Nat) (s : State),
    let run := performAll (List.replicate n .tickTimers) s
    run.1.dt.toNat = s.dt.toNat - n ∧ run.1.st.toNat = s.st.toNat - n ∧
    run.2.count (.ok (some .soundEvent)) = (if 0 < s.st.toNat ∧ s.st.toNat ≤ n then 1 else 0) ∧
    OnlyChanges [.dt, .st] s run.1

/-- The sound event comes of a tick that takes `ST` from 1 to 0 and of no other operation, a SET_SOUND over a running
timer included (R258; the spec's decision D19). -/
def Obligations.SoundEventOnlyFromTick : Prop :=
  ∀ (op : HostOp) (s : State), (perform op s).2 = .ok (some .soundEvent) ↔ op = .tickTimers ∧ s.st = 1

/-- R254, R255: `key_down` and `key_up`. -/
def Obligations.KeyOperationsResult : Prop :=
  ∀ (k : KeyIdx) (s : State),
    (∃ t, perform (.keyDown k) s = (t, .ok none) ∧ (∀ j, keyIsDown t j = if j = k then true else keyIsDown s j) ∧
      OnlyChanges [.key] s t ∧ perform (.keyDown k) t = (t, .ok none)) ∧
    (∃ t, perform (.keyUp k) s = (t, .ok none) ∧ (∀ j, keyIsDown t j = if j = k then false else keyIsDown s j) ∧
      OnlyChanges [.key] s t ∧ perform (.keyUp k) t = (t, .ok none))

/-- R256: `framebuffer` returns the pixels in row-major order and changes nothing. -/
def Obligations.FramebufferReadOut : Prop :=
  ∀ s : State, ∃ p, perform .framebuffer s = (s, .pixels p) ∧
    ∀ (x : Fin 64) (y : Fin 32), p[64 * y.val + x.val]? = some (pixel s.fb x y)

/-- `consume_dirty_flag` returns `DIRTY` and clears it; that reading the flag clears it is the spec's decision D18. -/
def Obligations.ConsumeDirtyFlagResult : Prop :=
  ∀ s : State, ∃ t, perform .consumeDirtyFlag s = (t, .flag s.dirty) ∧ t.dirty = false ∧ OnlyChanges [.dirty] s t

/-- No change of the display is missed: over any operations that neither reset the core nor consume the flag, `DIRTY` is
set or no pixel has changed (R31, R257). -/
def Obligations.DisplayChangeSetsDirty : Prop :=
  ∀ (ops : List HostOp) (s : State), HostOp.init ∉ ops → HostOp.consumeDirtyFlag ∉ ops →
    let t := (performAll ops s).1
    t.dirty = true ∨ (t.dirty = s.dirty ∧ ∀ x y, pixel t.fb x y = pixel s.fb x y)

/-! ### Rules about the whole machine (10_state.md) -/

/-- Who writes each item of state (the 'written by' column of R34): an instruction that changes it is of a listed kind.
The two key skips write `KEY` only if the consumption policy says so. -/
def Obligations.ItemsWrittenOnlyByTheirKinds : Prop :=
  ∀ (i : Instr) (s t : State), exec i s = .next t →
    (¬SameItem .mem s t → i.kind ∈ [.storeBcd, .dumpRegs]) ∧
    (¬SameItem .i s t → i.kind ∈ [.setIndex, .addIndex, .setIndexFont, .dumpRegs, .loadRegs]) ∧
    (¬SameItem .stack s t → i.kind = .call) ∧
    (¬SameItem .sp s t → i.kind ∈ [.call, .ret]) ∧
    (¬SameItem .dt s t → i.kind = .setDelay) ∧
    (¬SameItem .st s t → i.kind = .setSound) ∧
    (¬SameItem .key s t → i.kind = .waitKey ∨ (keySkipConsumes = true ∧ i.kind ∈ [.skipKeyDown, .skipKeyUp])) ∧
    (¬SameItem .fb s t → i.kind ∈ [.clear, .draw]) ∧
    (¬SameItem .dirty s t → i.kind ∈ [.clear, .draw]) ∧
    (∀ r, reg t r ≠ reg s r →
      (fieldX i = some r ∧ i.kind ∈ registerKinds) ∨ (r = flagReg ∧ i.kind ∈ flagKinds) ∨ ∃ x, i = .loadRegs x ∧ r ≤ x)

/-- The flag (R23; the spec's decisions D8, D10 and D11): a flag-defining instruction leaves 0 or 1 in `VF`; every other leaves `VF` unchanged unless it names
it through `X` or loads all sixteen registers; OR, AND, XOR, ADD_IMM and ADD_INDEX define no flag; and `VF` resets
to 0. -/
def Obligations.FlagWrittenOnlyByFlagKinds : Prop :=
  (∀ (i : Instr) (s t : State), exec i s = .next t →
    (i.kind ∈ flagKinds → reg t flagReg = 0 ∨ reg t flagReg = 1) ∧
    (i.kind ∉ flagKinds → fieldX i ≠ some flagReg → reg t flagReg = reg s flagReg)) ∧
  (∀ k ∈ flagKinds, k ∉ [Kind.orReg, .andReg, .xorReg, .addImm, .addIndex]) ∧
  reg State.reset flagReg = 0

/-- No instruction reads `ST` or `DIRTY` (R28, R31): two states that differ in these alone raise the same error or give
next states that differ in these alone, each as the instruction wrote it or as it was. -/
def Obligations.SoundTimerAndDirtyAreNeverRead : Prop :=
  ∀ (i : Instr) (s : State) (b : Byte) (d : Bool),
    (∀ f, exec i s = .fault f ↔ exec i { s with st := b, dirty := d } = .fault f) ∧
    ∀ t, exec i s = .next t → ∃ t', exec i { s with st := b, dirty := d } = .next t' ∧
      OnlyChanges [.st, .dirty] t t' ∧ t'.st = (if i.kind = .setSound then t.st else b) ∧
      t'.dirty = (if i.kind ∈ [.clear, .draw] then true else d)

/-- The state after reset meets the invariant: the bounds of R37, and the canonical form of memory, which is the model's
choice (log entry 20). -/
def Obligations.ResetMeetsInvariant : Prop := StateInv State.reset

/-- Every step of the core keeps the invariant, from every state that meets it: `PC` stays at most 0x10FE and every stack
entry in use at most 0x1000 (R37), and memory stays in canonical form (the model's choice, log entry 20). -/
def Obligations.StepKeepsInvariant : Prop := ∀ s t : State, StateInv s → step s = .next t → StateInv t

/-- Every operation of the host keeps the invariant: the bounds of R37, and the canonical form of memory, which is the
model's choice (log entry 20). -/
def Obligations.OperationsKeepInvariant : Prop := ∀ (op : HostOp) (s : State), StateInv s → StateInv (perform op s).1

/-- What holds in every state the operations reach from reset (R37, which the spec marks as derived), and that memory is
in canonical form (the model's choice, log entry 20). The bounds on `SP` (log entry 7), the timers and the registers hold
by the types of `State` alone; the others follow from `StepKeepsInvariant` and `OperationsKeepInvariant`. -/
def Obligations.ReachableStatesMeetInvariant : Prop :=
  (∀ s : State, Reachable s →
    s.sp.val ≤ 16 ∧ s.pc.toNat ≤ 0x10FE ∧ (∀ k : Fin 16, k.val < s.sp.val → (s.stack[k.val]).toNat ≤ 0x1000) ∧
    s.dt.toNat ≤ 255 ∧ s.st.toNat ≤ 255 ∧ (∀ r, (reg s r).toNat ≤ 255) ∧ Memory.wf s.mem = true) ∧
  (∀ (i : Instr) (s t : State), exec i s = .next t → i.kind ∈ flagKinds → reg t flagReg = 0 ∨ reg t flagReg = 1) ∧
  (∀ (op : HostOp) (s : State), Reachable s →
    (∀ a < 0x50, byteAt s.mem a = font.getD a 0) → (∃ a < 0x50, byteAt (perform op s).1.mem a ≠ font.getD a 0) →
    ∃ byte w, op = .step byte ∧ fetch s = .ok w ∧ (decode w).kind ∈ [.storeBcd, .dumpRegs])
end

