-- ==== Sys2Proof/Laws/Decode.lean ====
section
/-! SUPPORT. The fields of an encoded word: what the decoder's field extractions give on the words the encoder builds,
format by format (spec/30_encoding.md R91, R92), and a word rebuilt from its fields. -/

namespace Sys2Proof

/-! ### Field extraction over the naturals -/

theorem toNat_wordFamily (w : Word) : (wordFamily w).toNat = w.toNat / 4096 % 16 := by
  simp [wordFamily, BitVec.extractLsb'_toNat, Nat.shiftRight_eq_div_pow]

theorem val_wordX (w : Word) : (wordX w).val = w.toNat / 256 % 16 := by
  simp [wordX, Nat.shiftRight_eq_div_pow]

theorem val_wordY (w : Word) : (wordY w).val = w.toNat / 16 % 16 := by
  simp [wordY, Nat.shiftRight_eq_div_pow]

theorem toNat_wordN (w : Word) : (wordN w).toNat = w.toNat % 16 := by
  simp [wordN, BitVec.extractLsb'_toNat]

theorem toNat_wordNN (w : Word) : (wordNN w).toNat = w.toNat % 256 := by
  simp [wordNN, BitVec.extractLsb'_toNat]

theorem toNat_wordNNN (w : Word) : (wordNNN w).toNat = w.toNat % 4096 := by
  simp [wordNNN, BitVec.extractLsb'_toNat]

/-! ### Encoded words over the naturals -/

@[simp] theorem toNat_nibbleOf (x : Fin 16) : (nibbleOf x).toNat = x.val := rfl

/-- Two bit vectors joined, over the naturals: the high one scaled, plus the low one. -/
theorem toNat_join {m n : Nat} (a : BitVec m) (b : BitVec n) : (a ++ b).toNat = a.toNat * 2 ^ n + b.toNat := by
  rw [BitVec.toNat_append, Nat.shiftLeft_eq, Nat.mul_comm, ← Nat.two_pow_add_eq_or_of_lt b.isLt]

theorem toNat_encodeNNN (f : Nibble) (nnn : Imm12) : (encodeNNN f nnn).toNat = f.toNat * 4096 + nnn.toNat := by
  rw [encodeNNN, toNat_join]
  omega

theorem toNat_encodeXNN (f : Nibble) (x : RegIdx) (nn : Byte) :
    (encodeXNN f x nn).toNat = f.toNat * 4096 + x.val * 256 + nn.toNat := by
  rw [encodeXNN, toNat_join, toNat_join, toNat_nibbleOf]
  omega

theorem toNat_encodeXYN (f : Nibble) (x y : RegIdx) (n : Nibble) :
    (encodeXYN f x y n).toNat = f.toNat * 4096 + x.val * 256 + y.val * 16 + n.toNat := by
  rw [encodeXYN, toNat_join, toNat_join, toNat_join, toNat_nibbleOf, toNat_nibbleOf]
  omega

/-! ### The fields of an encoded word -/

section Fields

variable (f : Nibble) (x y : RegIdx) (n : Nibble) (nn : Byte) (nnn : Imm12)

@[simp] theorem wordFamily_encodeNNN : wordFamily (encodeNNN f nnn) = f := by
  have := nnn.isLt
  have := f.isLt
  apply BitVec.eq_of_toNat_eq
  rw [toNat_wordFamily, toNat_encodeNNN]
  omega

@[simp] theorem wordNNN_encodeNNN : wordNNN (encodeNNN f nnn) = nnn := by
  have := nnn.isLt
  apply BitVec.eq_of_toNat_eq
  rw [toNat_wordNNN, toNat_encodeNNN]
  omega

@[simp] theorem wordFamily_encodeXNN : wordFamily (encodeXNN f x nn) = f := by
  have := nn.isLt
  have := x.isLt
  have := f.isLt
  apply BitVec.eq_of_toNat_eq
  rw [toNat_wordFamily, toNat_encodeXNN]
  omega

@[simp] theorem wordX_encodeXNN : wordX (encodeXNN f x nn) = x := by
  have := nn.isLt
  have := x.isLt
  apply Fin.ext
  rw [val_wordX, toNat_encodeXNN]
  omega

@[simp] theorem wordNN_encodeXNN : wordNN (encodeXNN f x nn) = nn := by
  have := nn.isLt
  apply BitVec.eq_of_toNat_eq
  rw [toNat_wordNN, toNat_encodeXNN]
  omega

@[simp] theorem wordFamily_encodeXYN : wordFamily (encodeXYN f x y n) = f := by
  have := n.isLt
  have := x.isLt
  have := y.isLt
  have := f.isLt
  apply BitVec.eq_of_toNat_eq
  rw [toNat_wordFamily, toNat_encodeXYN]
  omega

@[simp] theorem wordX_encodeXYN : wordX (encodeXYN f x y n) = x := by
  have := n.isLt
  have := x.isLt
  have := y.isLt
  apply Fin.ext
  rw [val_wordX, toNat_encodeXYN]
  omega

@[simp] theorem wordY_encodeXYN : wordY (encodeXYN f x y n) = y := by
  have := n.isLt
  have := y.isLt
  apply Fin.ext
  rw [val_wordY, toNat_encodeXYN]
  omega

@[simp] theorem wordN_encodeXYN : wordN (encodeXYN f x y n) = n := by
  have := n.isLt
  apply BitVec.eq_of_toNat_eq
  rw [toNat_wordN, toNat_encodeXYN]
  omega

end Fields

/-! ### A word from its fields -/

theorem encodeNNN_wordFields (w : Word) : encodeNNN (wordFamily w) (wordNNN w) = w := by
  have := w.isLt
  apply BitVec.eq_of_toNat_eq
  rw [toNat_encodeNNN, toNat_wordFamily, toNat_wordNNN]
  omega

theorem encodeXNN_wordFields (w : Word) : encodeXNN (wordFamily w) (wordX w) (wordNN w) = w := by
  have := w.isLt
  apply BitVec.eq_of_toNat_eq
  rw [toNat_encodeXNN, toNat_wordFamily, val_wordX, toNat_wordNN]
  omega

theorem encodeXYN_wordFields (w : Word) : encodeXYN (wordFamily w) (wordX w) (wordY w) (wordN w) = w := by
  have := w.isLt
  apply BitVec.eq_of_toNat_eq
  rw [toNat_encodeXYN, toNat_wordFamily, val_wordX, val_wordY, toNat_wordN]
  omega

/-! ### The bits a row of the opcode map examines (R94) -/

/-- Mask 0xF000 keeps the family. -/
theorem toNat_and_F000 (w : Word) : (w &&& 0xF000).toNat = (wordFamily w).toNat * 4096 := by
  rw [show w &&& 0xF000 = encodeNNN (wordFamily w) 0 by
    conv_lhs => rw [← encodeNNN_wordFields w]
    rw [encodeNNN, show (0xF000 : Word) = 0xF#4 ++ 0#12 from rfl, BitVec.and_append, encodeNNN,
      show wordFamily w &&& 0xF#4 = wordFamily w from BitVec.and_allOnes, BitVec.and_zero]
    rfl, toNat_encodeNNN]
  simp

/-- Mask 0xF00F keeps the family and the low nibble. -/
theorem toNat_and_F00F (w : Word) : (w &&& 0xF00F).toNat = (wordFamily w).toNat * 4096 + (wordN w).toNat := by
  rw [show w &&& 0xF00F = encodeXYN (wordFamily w) 0 0 (wordN w) by
    conv_lhs => rw [← encodeXYN_wordFields w]
    rw [encodeXYN, show (0xF00F : Word) = 0xF#4 ++ 0#4 ++ 0#4 ++ 0xF#4 from rfl, BitVec.and_append,
      BitVec.and_append, BitVec.and_append, encodeXYN,
      show wordFamily w &&& 0xF#4 = wordFamily w from BitVec.and_allOnes,
      show wordN w &&& 0xF#4 = wordN w from BitVec.and_allOnes, BitVec.and_zero, BitVec.and_zero]
    rfl, toNat_encodeXYN]
  simp

/-- Mask 0xF0FF keeps the family and the low byte. -/
theorem toNat_and_F0FF (w : Word) : (w &&& 0xF0FF).toNat = (wordFamily w).toNat * 4096 + (wordNN w).toNat := by
  rw [show w &&& 0xF0FF = encodeXNN (wordFamily w) 0 (wordNN w) by
    conv_lhs => rw [← encodeXNN_wordFields w]
    rw [encodeXNN, show (0xF0FF : Word) = 0xF#4 ++ 0#4 ++ 0xFF#8 from rfl, BitVec.and_append,
      BitVec.and_append, encodeXNN,
      show wordFamily w &&& 0xF#4 = wordFamily w from BitVec.and_allOnes,
      show wordNN w &&& 0xFF#8 = wordNN w from BitVec.and_allOnes, BitVec.and_zero]
    rfl, toNat_encodeXNN]
  simp

/-- Whether a row that examines the family alone matches. -/
theorem rowMatches_F000 (k : Kind) (b w : Word) :
    rowMatches ⟨k, 0xF000, b⟩ w = decide ((wordFamily w).toNat * 4096 = b.toNat) := by
  rw [rowMatches, Bool.eq_iff_iff, beq_iff_eq, decide_eq_true_iff, ← toNat_and_F000, BitVec.toNat_inj]

/-- Whether a row that examines the family and the low nibble matches. -/
theorem rowMatches_F00F (k : Kind) (b w : Word) :
    rowMatches ⟨k, 0xF00F, b⟩ w = decide ((wordN w).toNat + (wordFamily w).toNat * 4096 = b.toNat) := by
  rw [rowMatches, Bool.eq_iff_iff, beq_iff_eq, decide_eq_true_iff, Nat.add_comm, ← toNat_and_F00F, BitVec.toNat_inj]

/-- Whether a row that examines the family and the low byte matches. -/
theorem rowMatches_F0FF (k : Kind) (b w : Word) :
    rowMatches ⟨k, 0xF0FF, b⟩ w = decide ((wordNN w).toNat + (wordFamily w).toNat * 4096 = b.toNat) := by
  rw [rowMatches, Bool.eq_iff_iff, beq_iff_eq, decide_eq_true_iff, Nat.add_comm, ← toNat_and_F0FF, BitVec.toNat_inj]

/-! ### Bytes and words -/

/-- A word cut into its bytes and joined again is the word (R64). -/
@[simp] theorem wordOfBytes_extract (w : Word) : wordOfBytes (w.extractLsb' 8 8) (w.extractLsb' 0 8) = w := by
  have := w.isLt
  apply BitVec.eq_of_toNat_eq
  have hlo : (w.extractLsb' 0 8).toNat = w.toNat % 256 := by simp [BitVec.extractLsb'_toNat]
  have hhi : (w.extractLsb' 8 8).toNat = w.toNat / 256 % 256 := by
    simp [BitVec.extractLsb'_toNat, Nat.shiftRight_eq_div_pow]
  rw [wordOfBytes, toNat_join, hlo, hhi]
  omega

end Sys2Proof
end

