-- ==== Sys2Proof/Laws/Memory.lean ====
section
/-! SUPPORT. What the memory operations do: read after write, the canonical form every write keeps, the bytes a run
of writes leaves, and that two memories in canonical form which read alike are equal (spec/20_memory.md R61 to R70). -/

namespace Sys2Proof.Machine

@[simp] theorem byteAt_nil (a : Nat) : byteAt [] a = resetByte a := rfl

theorem byteAt_cons (b : Nat) (v : Byte) (m : Memory) (a : Nat) :
    byteAt ((b, v) :: m) a = if a = b then v else byteAt m a := rfl

/-! ### The canonical form, one entry at a time -/

/-- The form from `lo` on, taken apart at the first entry. -/
theorem wfFrom_cons {lo a : Nat} {v : Byte} {m : Memory} :
    wfFrom lo ((a, v) :: m) = true ↔ lo ≤ a ∧ a < memSize ∧ v ≠ resetByte a ∧ wfFrom (a + 1) m = true := by
  simp [wfFrom, and_assoc]

/-- The form from an address holds from every lower one. -/
theorem wfFrom_mono {lo lo' : Nat} {m : Memory} (h : wfFrom lo m = true) (hle : lo' ≤ lo) : wfFrom lo' m = true := by
  cases m with
  | nil => rfl
  | cons e m =>
    obtain ⟨a, v⟩ := e
    rw [wfFrom_cons] at h ⊢
    exact ⟨le_trans hle h.1, h.2⟩

/-- Below the form's first address nothing is listed. -/
theorem byteAt_of_lt {lo : Nat} {m : Memory} (h : wfFrom lo m = true) {a : Nat} (ha : a < lo) :
    byteAt m a = resetByte a := by
  induction m generalizing lo with
  | nil => rfl
  | cons e m ih =>
    obtain ⟨b, v⟩ := e
    obtain ⟨hlo, -, -, hm⟩ := wfFrom_cons.1 h
    rw [byteAt_cons, if_neg (by omega)]
    exact ih hm (by omega)

/-! ### One byte -/

/-- A read after a write (R62): the byte written at its address, every other byte as before. The canonical form is
what makes removing an entry reveal the reset contents and nothing else. -/
theorem byteAt_writeByte {lo : Nat} {m : Memory} (h : wfFrom lo m = true) (a b : Nat) (v : Byte) :
    byteAt (writeByte m a v) b = if b = a then v else byteAt m b := by
  induction m generalizing lo with
  | nil =>
    simp only [writeByte]
    split <;> rename_i hv
    · by_cases hb : b = a <;> simp [hb, hv]
    · rw [byteAt_cons]
  | cons e m ih =>
    obtain ⟨c, u⟩ := e
    obtain ⟨-, -, -, hm⟩ := wfFrom_cons.1 h
    simp only [writeByte]
    split <;> rename_i hac
    · -- the address stands before the first entry: nothing was listed for it
      split <;> rename_i hv
      · by_cases hb : b = a
        · subst hb
          rw [if_pos rfl, byteAt_cons, if_neg (by omega), byteAt_of_lt hm (by omega), hv]
        · rw [if_neg hb]
      · rw [byteAt_cons]
    · split <;> rename_i hac'
      · -- the address is the first entry's
        subst hac'
        split <;> rename_i hv
        · by_cases hb : b = a
          · subst hb
            rw [if_pos rfl, byteAt_of_lt hm (by omega), hv]
          · rw [if_neg hb, byteAt_cons, if_neg hb]
        · rw [byteAt_cons, byteAt_cons]
          by_cases hb : b = a <;> simp [hb]
      · -- the address stands further on
        rw [byteAt_cons, byteAt_cons, ih hm]
        by_cases hb : b = c
        · rw [if_pos hb, if_pos hb, if_neg (by omega)]
        · rw [if_neg hb, if_neg hb]

/-- Writing a valid address keeps the canonical form. -/
theorem wfFrom_writeByte {lo : Nat} {m : Memory} (h : wfFrom lo m = true) {a : Nat} (hlo : lo ≤ a) (ha : a < memSize)
    (v : Byte) : wfFrom lo (writeByte m a v) = true := by
  induction m generalizing lo with
  | nil =>
    simp only [writeByte]
    split <;> rename_i hv
    · rfl
    · exact wfFrom_cons.2 ⟨hlo, ha, hv, rfl⟩
  | cons e m ih =>
    obtain ⟨c, u⟩ := e
    obtain ⟨hc, hcs, hu, hm⟩ := wfFrom_cons.1 h
    simp only [writeByte]
    split <;> rename_i hac
    · split <;> rename_i hv
      · exact h
      · exact wfFrom_cons.2 ⟨hlo, ha, hv, wfFrom_cons.2 ⟨by omega, hcs, hu, hm⟩⟩
    · split <;> rename_i hac'
      · subst hac'
        split <;> rename_i hv
        · exact wfFrom_mono hm (by omega)
        · exact wfFrom_cons.2 ⟨hlo, ha, hv, hm⟩
      · exact wfFrom_cons.2 ⟨hc, hcs, hu, ih hm (by omega)⟩

/-- Writing a valid address keeps the canonical form of a memory. -/
theorem wf_writeByte {m : Memory} (h : Memory.wf m = true) {a : Nat} (ha : a < memSize) (v : Byte) :
    Memory.wf (writeByte m a v) = true := wfFrom_writeByte h (Nat.zero_le a) ha v

/-! ### Runs of bytes -/

/-- A run of writes into valid addresses keeps the canonical form. -/
theorem wf_writeBytes {m : Memory} (h : Memory.wf m = true) {a : Nat} {vs : List Byte} (ha : a + vs.length ≤ memSize) :
    Memory.wf (writeBytes m a vs) = true := by
  induction vs generalizing m a with
  | nil => exact h
  | cons v vs ih =>
    rw [List.length_cons] at ha
    exact ih (wf_writeByte h (by omega) v) (by omega)

/-- What memory holds after a run of writes (R66): the bytes of the run in order, and everything else as before. -/
theorem byteAt_writeBytes {m : Memory} (h : Memory.wf m = true) {a : Nat} {vs : List Byte}
    (ha : a + vs.length ≤ memSize) (b : Nat) :
    byteAt (writeBytes m a vs) b = if a ≤ b then (vs[b - a]?).getD (byteAt m b) else byteAt m b := by
  induction vs generalizing m a with
  | nil => simp [writeBytes]
  | cons v vs ih =>
    rw [List.length_cons] at ha
    rw [writeBytes, ih (wf_writeByte h (by omega) v) (by omega), byteAt_writeByte h]
    rcases Nat.lt_trichotomy b a with hlt | heq | hgt
    · rw [if_neg (by omega), if_neg (by omega), if_neg (by omega)]
    · subst heq
      rw [if_neg (by omega), if_pos rfl, if_pos (le_refl b), Nat.sub_self]
      rfl
    · obtain ⟨k, rfl⟩ : ∃ k, b = a + 1 + k := ⟨b - (a + 1), by omega⟩
      rw [if_pos (show a + 1 ≤ a + 1 + k by omega), if_pos (show a ≤ a + 1 + k by omega),
        if_neg (show ¬a + 1 + k = a by omega), show a + 1 + k - (a + 1) = k by omega,
        show a + 1 + k - a = k + 1 by omega, List.getElem?_cons_succ]

/-- Outside a run of writes every byte is as before. -/
theorem byteAt_writeBytes_outside {m : Memory} (h : Memory.wf m = true) {a : Nat} {vs : List Byte}
    (ha : a + vs.length ≤ memSize) {b : Nat} (hb : b < a ∨ a + vs.length ≤ b) :
    byteAt (writeBytes m a vs) b = byteAt m b := by
  rw [byteAt_writeBytes h ha]
  split
  · rw [List.getElem?_eq_none (by omega)]
    rfl
  · rfl

/-- A run of reads gives the bytes in ascending order (R66). -/
theorem readBytes_eq_map (m : Memory) (a n : Nat) :
    readBytes m a n = (List.range n).map fun r => byteAt m (a + r) := by
  induction n generalizing a with
  | zero => rfl
  | succ n ih =>
    rw [readBytes, ih, List.range_succ_eq_map, List.map_cons, List.map_map]
    congr 1
    refine List.map_congr_left fun r _ => ?_
    simp only [Function.comp_apply]
    congr 1
    omega

@[simp] theorem length_readBytes (m : Memory) (a n : Nat) : (readBytes m a n).length = n := by
  rw [readBytes_eq_map, List.length_map, List.length_range]

/-! ### The range check -/

/-- The range check over the naturals (R63): no bytes at all, or the last address below 0x1000. -/
theorem inRange_iff {a n : Nat} : inRange a n = true ↔ n = 0 ∨ a + n ≤ memSize := by
  simp [inRange]

/-- The range check of an access of at least one byte. -/
theorem inRange_pos {a n : Nat} (hn : 0 < n) : inRange a n = true ↔ a + n ≤ memSize := by
  rw [inRange_iff]
  omega

/-! ### Equal reads, equal memories -/

/-- Two memories in canonical form from the same address that read alike everywhere are the same list. -/
theorem eq_of_byteAt_eq {lo : Nat} {m m' : Memory} (h : wfFrom lo m = true) (h' : wfFrom lo m' = true)
    (heq : ∀ a, byteAt m a = byteAt m' a) : m = m' := by
  induction m generalizing lo m' with
  | nil =>
    cases m' with
    | nil => rfl
    | cons e m' =>
      obtain ⟨b, v⟩ := e
      obtain ⟨-, -, hv, -⟩ := wfFrom_cons.1 h'
      have := heq b
      rw [byteAt_cons, if_pos rfl] at this
      exact absurd this.symm hv
  | cons e m ih =>
    obtain ⟨a, u⟩ := e
    obtain ⟨ha, -, hu, hm⟩ := wfFrom_cons.1 h
    cases m' with
    | nil =>
      have := heq a
      rw [byteAt_cons, if_pos rfl] at this
      exact absurd this hu
    | cons e' m' =>
      obtain ⟨b, v⟩ := e'
      obtain ⟨hb, -, hv, hm'⟩ := wfFrom_cons.1 h'
      have hab : a = b := by
        rcases Nat.lt_trichotomy a b with hlt | he | hgt
        · have := heq a
          rw [byteAt_cons, if_pos rfl, byteAt_cons, if_neg (by omega), byteAt_of_lt hm' (by omega)] at this
          exact absurd this hu
        · exact he
        · have := heq b
          rw [byteAt_cons, if_neg (by omega), byteAt_of_lt hm (by omega), byteAt_cons, if_pos rfl] at this
          exact absurd this.symm hv
      subst hab
      have huv : u = v := by
        have := heq a
        rwa [byteAt_cons, if_pos rfl, byteAt_cons, if_pos rfl] at this
      subst huv
      rw [ih hm hm' fun c => ?_]
      by_cases hc : c < a + 1
      · rw [byteAt_of_lt hm hc, byteAt_of_lt hm' hc]
      · have := heq c
        rwa [byteAt_cons, if_neg (by omega), byteAt_cons, if_neg (by omega)] at this

end Sys2Proof.Machine
end

