-- ==== Sys2Proof/Laws/Display.lean ====
section
/-! SUPPORT. The compositing logic of DRAW in closed form (spec/44_display.md R211 to R214): no place is visited twice,
so a pixel is toggled exactly when a 1 bit of the sprite lands on it, and a collision is a hit on a set pixel. -/

namespace Sys2Proof.Machine

/-! ### One pixel -/

/-- Toggling one pixel leaves every other as it was. -/
theorem pixel_togglePixel (fb : Framebuffer) (x px : Fin 64) (y py : Fin 32) :
    pixel (togglePixel fb x y) px py = if (px, py) = (x, y) then !pixel fb px py else pixel fb px py := by
  unfold pixel togglePixel
  rw [Vector.getElem_set]
  by_cases hy : y = py
  · subst hy
    rw [if_pos rfl, Vector.getElem_set]
    by_cases hx : x = px
    · subst hx
      simp
    · rw [if_neg (fun h => hx (Fin.ext h)), if_neg (fun h => hx (congrArg Prod.fst h).symm)]
  · rw [if_neg (fun h => hy (Fin.ext h)), if_neg (fun h => hy (congrArg Prod.snd h).symm)]

@[simp] theorem pixel_clearFb (x : Fin 64) (y : Fin 32) : pixel clearFb x y = false := by
  simp [pixel, clearFb]

/-! ### A list of visits -/

theorem foldl_visit_fst (places : List Place) (hn : places.Nodup) (fb : Framebuffer) (c : Bool) (px : Fin 64)
    (py : Fin 32) :
    pixel (places.foldl visit (fb, c)).1 px py = (pixel fb px py ^^ decide ((px, py) ∈ places)) := by
  induction places generalizing fb c with
  | nil => simp
  | cons a l ih =>
    rw [List.nodup_cons] at hn
    rw [List.foldl_cons, visit, ih hn.2, pixel_togglePixel]
    by_cases ha : (px, py) = a
    · subst ha
      simp [hn.1]
    · simp [ha]

theorem foldl_visit_snd (places : List Place) (hn : places.Nodup) (fb : Framebuffer) (c : Bool) :
    (places.foldl visit (fb, c)).2 = true ↔ c = true ∨ ∃ q ∈ places, pixel fb q.1 q.2 = true := by
  induction places generalizing fb c with
  | nil => simp
  | cons a l ih =>
    rw [List.nodup_cons] at hn
    rw [List.foldl_cons, visit, ih hn.2]
    have hsame : ∀ q ∈ l, pixel (togglePixel fb a.1 a.2) q.1 q.2 = pixel fb q.1 q.2 := fun q hq => by
      rw [pixel_togglePixel, if_neg]
      intro h
      have hqa : q = a := h
      exact hn.1 (hqa ▸ hq)
    simp only [Bool.or_eq_true, List.mem_cons, exists_eq_or_imp, or_assoc]
    refine or_congr_right (or_congr_right (exists_congr fun q => and_congr_right fun hq => ?_))
    rw [hsame q hq]

/-! ### Where a sprite's bits land -/

theorem landing_eq_some {p : Config.EdgePolicy} {x y : Nat} {q : Place} :
    landing p x y = some q ↔ LandsAt p x y q.1 q.2 := by
  obtain ⟨qx, qy⟩ := q
  cases p with
  | clip =>
    have := qx.isLt
    have := qy.isLt
    simp only [landing, LandsAt]
    by_cases hxy : x < 64 ∧ y < 32
    · simp [dif_pos hxy, Fin.ext_iff]
    · rw [dif_neg hxy]
      constructor
      · intro h
        cases h
      · rintro ⟨hx, hy⟩
        omega
  | wrap => simp [landing, LandsAt, Fin.ext_iff]

/-- Two positions less than 64 columns and 32 rows apart that land on one place are one position. -/
theorem landsAt_inj {p : Config.EdgePolicy} {x x' y y' : Nat} {px : Fin 64} {py : Fin 32} (h : LandsAt p x y px py)
    (h' : LandsAt p x' y' px py) :
    (x ≤ x' → x' < x + 64 → x = x') ∧ (y ≤ y' → y' < y + 32 → y = y') := by
  cases p <;> simp only [LandsAt] at h h' <;> omega

theorem mem_rowLandings {p : Config.EdgePolicy} {x0 y : Nat} {b : Byte} {q : Place} :
    q ∈ rowLandings p x0 y b ↔ ∃ c < 8, b.getLsbD (7 - c) = true ∧ LandsAt p (x0 + c) y q.1 q.2 := by
  simp only [rowLandings, List.mem_filterMap, List.mem_range]
  refine exists_congr fun c => and_congr_right fun _ => ?_
  split <;> rename_i hb <;> simp [hb, landing_eq_some]

theorem mem_spriteLandings {p : Config.EdgePolicy} {x0 y : Nat} {bs : List Byte} {q : Place} :
    q ∈ spriteLandings p x0 y bs ↔
      ∃ r, ∃ h : r < bs.length, ∃ c < 8, (bs[r]).getLsbD (7 - c) = true ∧ LandsAt p (x0 + c) (y + r) q.1 q.2 := by
  induction bs generalizing y with
  | nil => simp [spriteLandings]
  | cons b bs ih =>
    rw [spriteLandings, List.mem_append, mem_rowLandings, ih]
    constructor
    · rintro (⟨c, hc, hb, hl⟩ | ⟨r, hr, c, hc, hb, hl⟩)
      · exact ⟨0, by simp, c, hc, hb, hl⟩
      · refine ⟨r + 1, by simpa using hr, c, hc, by simpa using hb, ?_⟩
        rwa [show y + (r + 1) = y + 1 + r by omega]
    · rintro ⟨r, hr, c, hc, hb, hl⟩
      cases r with
      | zero => exact .inl ⟨c, hc, hb, hl⟩
      | succ r =>
        refine .inr ⟨r, by simpa using hr, c, hc, by simpa using hb, ?_⟩
        rwa [show y + 1 + r = y + (r + 1) by omega]

theorem nodup_rowLandings (p : Config.EdgePolicy) (x0 y : Nat) (b : Byte) : (rowLandings p x0 y b).Nodup := by
  unfold rowLandings
  rw [List.Nodup, List.pairwise_filterMap]
  refine List.Pairwise.imp_of_mem ?_ (List.pairwise_lt_range (n := 8))
  intro c c' hc hc' hlt q hq q' hq' heq
  subst heq
  rw [List.mem_range] at hc hc'
  split at hq
  · split at hq'
    · have := (landsAt_inj (landing_eq_some.1 hq) (landing_eq_some.1 hq')).1
      omega
    · cases hq'
  · cases hq

/-- No place is visited twice in one DRAW, under either policy (R211). -/
theorem nodup_spriteLandings (p : Config.EdgePolicy) (x0 y : Nat) (bs : List Byte) (hlen : bs.length ≤ 32) :
    (spriteLandings p x0 y bs).Nodup := by
  induction bs generalizing y with
  | nil => exact List.nodup_nil
  | cons b bs ih =>
    rw [List.length_cons] at hlen
    rw [spriteLandings, List.nodup_append]
    refine ⟨nodup_rowLandings p x0 y b, ih (y + 1) (by omega), fun q hq q' hq' heq => ?_⟩
    subst heq
    obtain ⟨c, -, -, hl⟩ := mem_rowLandings.1 hq
    obtain ⟨r, hr, c', -, -, hl'⟩ := mem_spriteLandings.1 hq'
    have := (landsAt_inj hl hl').2
    omega

/-! ### The sprite in memory -/

theorem mem_spriteLandings_readBytes {p : Config.EdgePolicy} {m : Memory} {base n x0 y0 : Nat} {q : Place} :
    q ∈ spriteLandings p x0 y0 (readBytes m base n) ↔ Hits p m base n x0 y0 q.1 q.2 := by
  rw [mem_spriteLandings]
  unfold Hits
  constructor
  · rintro ⟨r, hr, c, hc, hb, hl⟩
    rw [length_readBytes] at hr
    refine ⟨r, hr, c, hc, ?_, hl⟩
    simpa [readBytes_eq_map] using hb
  · rintro ⟨r, hr, c, hc, hb, hl⟩
    refine ⟨r, by rwa [length_readBytes], c, hc, ?_, hl⟩
    simpa [readBytes_eq_map] using hb

/-- The framebuffer after compositing a sprite of at most 32 rows: a pixel hit is toggled, every other is as it
was. -/
theorem pixel_composite (p : Config.EdgePolicy) (fb : Framebuffer) (m : Memory) (base x0 y0 : Nat) {n : Nat}
    (hn : n ≤ 32) (px : Fin 64) (py : Fin 32) :
    (Hits p m base n x0 y0 px py →
      pixel (composite fb (spriteLandings p x0 y0 (readBytes m base n))).1 px py = !pixel fb px py) ∧
    (¬Hits p m base n x0 y0 px py →
      pixel (composite fb (spriteLandings p x0 y0 (readBytes m base n))).1 px py = pixel fb px py) := by
  have hnd : (spriteLandings p x0 y0 (readBytes m base n)).Nodup :=
    nodup_spriteLandings p x0 y0 _ (by rwa [length_readBytes])
  unfold composite
  rw [foldl_visit_fst _ hnd]
  constructor <;> intro h
  · rw [decide_eq_true ((mem_spriteLandings_readBytes (q := (px, py))).2 h), Bool.xor_true]
  · rw [decide_eq_false (fun hmem => h ((mem_spriteLandings_readBytes (q := (px, py))).1 hmem)), Bool.xor_false]

/-- The collision bit after compositing: some hit met a set pixel. -/
theorem composite_collision (p : Config.EdgePolicy) (fb : Framebuffer) (m : Memory) (base x0 y0 : Nat) {n : Nat}
    (hn : n ≤ 32) :
    (composite fb (spriteLandings p x0 y0 (readBytes m base n))).2 = true ↔
      ∃ px py, Hits p m base n x0 y0 px py ∧ pixel fb px py = true := by
  have hnd : (spriteLandings p x0 y0 (readBytes m base n)).Nodup :=
    nodup_spriteLandings p x0 y0 _ (by rwa [length_readBytes])
  unfold composite
  rw [foldl_visit_snd _ hnd]
  simp only [Bool.false_eq_true, false_or, Prod.exists, mem_spriteLandings_readBytes]

end Sys2Proof.Machine
end

