-- ==== Sys2Proof/Laws/State.lean ====
section
/-! SUPPORT. One lemma per field per update of the state, each true by rfl and used by simp, so that no later proof
unfolds a record update; and what reading a register, a key or a pixel gives after each update that can change it. -/

namespace Sys2Proof.Machine

variable (s : State)

/-! ### `jumpTo` -/

@[simp] theorem jumpTo_mem (w : Word) : (jumpTo s w).mem = s.mem := rfl
@[simp] theorem jumpTo_v (w : Word) : (jumpTo s w).v = s.v := rfl
@[simp] theorem jumpTo_i (w : Word) : (jumpTo s w).i = s.i := rfl
@[simp] theorem jumpTo_pc (w : Word) : (jumpTo s w).pc = w := rfl
@[simp] theorem jumpTo_stack (w : Word) : (jumpTo s w).stack = s.stack := rfl
@[simp] theorem jumpTo_sp (w : Word) : (jumpTo s w).sp = s.sp := rfl
@[simp] theorem jumpTo_dt (w : Word) : (jumpTo s w).dt = s.dt := rfl
@[simp] theorem jumpTo_st (w : Word) : (jumpTo s w).st = s.st := rfl
@[simp] theorem jumpTo_key (w : Word) : (jumpTo s w).key = s.key := rfl
@[simp] theorem jumpTo_fb (w : Word) : (jumpTo s w).fb = s.fb := rfl
@[simp] theorem jumpTo_dirty (w : Word) : (jumpTo s w).dirty = s.dirty := rfl
@[simp] theorem jumpTo_randDraws (w : Word) : (jumpTo s w).randDraws = s.randDraws := rfl

/-! ### `advance` -/

@[simp] theorem advance_mem : (advance s).mem = s.mem := rfl
@[simp] theorem advance_v : (advance s).v = s.v := rfl
@[simp] theorem advance_i : (advance s).i = s.i := rfl
@[simp] theorem advance_pc : (advance s).pc = s.pc + 2 := rfl
@[simp] theorem advance_stack : (advance s).stack = s.stack := rfl
@[simp] theorem advance_sp : (advance s).sp = s.sp := rfl
@[simp] theorem advance_dt : (advance s).dt = s.dt := rfl
@[simp] theorem advance_st : (advance s).st = s.st := rfl
@[simp] theorem advance_key : (advance s).key = s.key := rfl
@[simp] theorem advance_fb : (advance s).fb = s.fb := rfl
@[simp] theorem advance_dirty : (advance s).dirty = s.dirty := rfl
@[simp] theorem advance_randDraws : (advance s).randDraws = s.randDraws := rfl

/-! ### `setReg` -/

@[simp] theorem setReg_mem (x : RegIdx) (b : Byte) : (setReg s x b).mem = s.mem := rfl
@[simp] theorem setReg_v (x : RegIdx) (b : Byte) : (setReg s x b).v = s.v.set x.val b := rfl
@[simp] theorem setReg_i (x : RegIdx) (b : Byte) : (setReg s x b).i = s.i := rfl
@[simp] theorem setReg_pc (x : RegIdx) (b : Byte) : (setReg s x b).pc = s.pc := rfl
@[simp] theorem setReg_stack (x : RegIdx) (b : Byte) : (setReg s x b).stack = s.stack := rfl
@[simp] theorem setReg_sp (x : RegIdx) (b : Byte) : (setReg s x b).sp = s.sp := rfl
@[simp] theorem setReg_dt (x : RegIdx) (b : Byte) : (setReg s x b).dt = s.dt := rfl
@[simp] theorem setReg_st (x : RegIdx) (b : Byte) : (setReg s x b).st = s.st := rfl
@[simp] theorem setReg_key (x : RegIdx) (b : Byte) : (setReg s x b).key = s.key := rfl
@[simp] theorem setReg_fb (x : RegIdx) (b : Byte) : (setReg s x b).fb = s.fb := rfl
@[simp] theorem setReg_dirty (x : RegIdx) (b : Byte) : (setReg s x b).dirty = s.dirty := rfl
@[simp] theorem setReg_randDraws (x : RegIdx) (b : Byte) : (setReg s x b).randDraws = s.randDraws := rfl

/-! ### `setFlag` -/

@[simp] theorem setFlag_mem (b : Bool) : (setFlag s b).mem = s.mem := rfl
@[simp] theorem setFlag_v (b : Bool) : (setFlag s b).v = s.v.set 15 (flagByte b) := rfl
@[simp] theorem setFlag_i (b : Bool) : (setFlag s b).i = s.i := rfl
@[simp] theorem setFlag_pc (b : Bool) : (setFlag s b).pc = s.pc := rfl
@[simp] theorem setFlag_stack (b : Bool) : (setFlag s b).stack = s.stack := rfl
@[simp] theorem setFlag_sp (b : Bool) : (setFlag s b).sp = s.sp := rfl
@[simp] theorem setFlag_dt (b : Bool) : (setFlag s b).dt = s.dt := rfl
@[simp] theorem setFlag_st (b : Bool) : (setFlag s b).st = s.st := rfl
@[simp] theorem setFlag_key (b : Bool) : (setFlag s b).key = s.key := rfl
@[simp] theorem setFlag_fb (b : Bool) : (setFlag s b).fb = s.fb := rfl
@[simp] theorem setFlag_dirty (b : Bool) : (setFlag s b).dirty = s.dirty := rfl
@[simp] theorem setFlag_randDraws (b : Bool) : (setFlag s b).randDraws = s.randDraws := rfl

/-! ### `setFlagged` -/

@[simp] theorem setFlagged_mem (x : RegIdx) (r : FlaggedResult) : (setFlagged s x r).mem = s.mem := rfl
@[simp] theorem setFlagged_i (x : RegIdx) (r : FlaggedResult) : (setFlagged s x r).i = s.i := rfl
@[simp] theorem setFlagged_pc (x : RegIdx) (r : FlaggedResult) : (setFlagged s x r).pc = s.pc := rfl
@[simp] theorem setFlagged_stack (x : RegIdx) (r : FlaggedResult) : (setFlagged s x r).stack = s.stack := rfl
@[simp] theorem setFlagged_sp (x : RegIdx) (r : FlaggedResult) : (setFlagged s x r).sp = s.sp := rfl
@[simp] theorem setFlagged_dt (x : RegIdx) (r : FlaggedResult) : (setFlagged s x r).dt = s.dt := rfl
@[simp] theorem setFlagged_st (x : RegIdx) (r : FlaggedResult) : (setFlagged s x r).st = s.st := rfl
@[simp] theorem setFlagged_key (x : RegIdx) (r : FlaggedResult) : (setFlagged s x r).key = s.key := rfl
@[simp] theorem setFlagged_fb (x : RegIdx) (r : FlaggedResult) : (setFlagged s x r).fb = s.fb := rfl
@[simp] theorem setFlagged_dirty (x : RegIdx) (r : FlaggedResult) : (setFlagged s x r).dirty = s.dirty := rfl
@[simp] theorem setFlagged_randDraws (x : RegIdx) (r : FlaggedResult) : (setFlagged s x r).randDraws = s.randDraws := rfl

/-! ### `loadRegsFrom` -/

@[simp] theorem loadRegsFrom_mem (x : RegIdx) (base : Nat) : (loadRegsFrom s x base).mem = s.mem := rfl
@[simp] theorem loadRegsFrom_i (x : RegIdx) (base : Nat) : (loadRegsFrom s x base).i = s.i := rfl
@[simp] theorem loadRegsFrom_pc (x : RegIdx) (base : Nat) : (loadRegsFrom s x base).pc = s.pc := rfl
@[simp] theorem loadRegsFrom_stack (x : RegIdx) (base : Nat) : (loadRegsFrom s x base).stack = s.stack := rfl
@[simp] theorem loadRegsFrom_sp (x : RegIdx) (base : Nat) : (loadRegsFrom s x base).sp = s.sp := rfl
@[simp] theorem loadRegsFrom_dt (x : RegIdx) (base : Nat) : (loadRegsFrom s x base).dt = s.dt := rfl
@[simp] theorem loadRegsFrom_st (x : RegIdx) (base : Nat) : (loadRegsFrom s x base).st = s.st := rfl
@[simp] theorem loadRegsFrom_key (x : RegIdx) (base : Nat) : (loadRegsFrom s x base).key = s.key := rfl
@[simp] theorem loadRegsFrom_fb (x : RegIdx) (base : Nat) : (loadRegsFrom s x base).fb = s.fb := rfl
@[simp] theorem loadRegsFrom_dirty (x : RegIdx) (base : Nat) : (loadRegsFrom s x base).dirty = s.dirty := rfl
@[simp] theorem loadRegsFrom_randDraws (x : RegIdx) (base : Nat) : (loadRegsFrom s x base).randDraws = s.randDraws := rfl

/-! ### `setI` -/

@[simp] theorem setI_mem (w : Word) : (setI s w).mem = s.mem := rfl
@[simp] theorem setI_v (w : Word) : (setI s w).v = s.v := rfl
@[simp] theorem setI_i (w : Word) : (setI s w).i = w := rfl
@[simp] theorem setI_pc (w : Word) : (setI s w).pc = s.pc := rfl
@[simp] theorem setI_stack (w : Word) : (setI s w).stack = s.stack := rfl
@[simp] theorem setI_sp (w : Word) : (setI s w).sp = s.sp := rfl
@[simp] theorem setI_dt (w : Word) : (setI s w).dt = s.dt := rfl
@[simp] theorem setI_st (w : Word) : (setI s w).st = s.st := rfl
@[simp] theorem setI_key (w : Word) : (setI s w).key = s.key := rfl
@[simp] theorem setI_fb (w : Word) : (setI s w).fb = s.fb := rfl
@[simp] theorem setI_dirty (w : Word) : (setI s w).dirty = s.dirty := rfl
@[simp] theorem setI_randDraws (w : Word) : (setI s w).randDraws = s.randDraws := rfl

/-! ### `bumpIndex` -/

@[simp] theorem bumpIndex_mem (x : RegIdx) : (bumpIndex s x).mem = s.mem := rfl
@[simp] theorem bumpIndex_v (x : RegIdx) : (bumpIndex s x).v = s.v := rfl
@[simp] theorem bumpIndex_i (x : RegIdx) : (bumpIndex s x).i = BitVec.ofNat 16 (s.i.toNat + x.val + 1) := rfl
@[simp] theorem bumpIndex_pc (x : RegIdx) : (bumpIndex s x).pc = s.pc := rfl
@[simp] theorem bumpIndex_stack (x : RegIdx) : (bumpIndex s x).stack = s.stack := rfl
@[simp] theorem bumpIndex_sp (x : RegIdx) : (bumpIndex s x).sp = s.sp := rfl
@[simp] theorem bumpIndex_dt (x : RegIdx) : (bumpIndex s x).dt = s.dt := rfl
@[simp] theorem bumpIndex_st (x : RegIdx) : (bumpIndex s x).st = s.st := rfl
@[simp] theorem bumpIndex_key (x : RegIdx) : (bumpIndex s x).key = s.key := rfl
@[simp] theorem bumpIndex_fb (x : RegIdx) : (bumpIndex s x).fb = s.fb := rfl
@[simp] theorem bumpIndex_dirty (x : RegIdx) : (bumpIndex s x).dirty = s.dirty := rfl
@[simp] theorem bumpIndex_randDraws (x : RegIdx) : (bumpIndex s x).randDraws = s.randDraws := rfl

/-! ### `setDt` -/

@[simp] theorem setDt_mem (b : Byte) : (setDt s b).mem = s.mem := rfl
@[simp] theorem setDt_v (b : Byte) : (setDt s b).v = s.v := rfl
@[simp] theorem setDt_i (b : Byte) : (setDt s b).i = s.i := rfl
@[simp] theorem setDt_pc (b : Byte) : (setDt s b).pc = s.pc := rfl
@[simp] theorem setDt_stack (b : Byte) : (setDt s b).stack = s.stack := rfl
@[simp] theorem setDt_sp (b : Byte) : (setDt s b).sp = s.sp := rfl
@[simp] theorem setDt_dt (b : Byte) : (setDt s b).dt = b := rfl
@[simp] theorem setDt_st (b : Byte) : (setDt s b).st = s.st := rfl
@[simp] theorem setDt_key (b : Byte) : (setDt s b).key = s.key := rfl
@[simp] theorem setDt_fb (b : Byte) : (setDt s b).fb = s.fb := rfl
@[simp] theorem setDt_dirty (b : Byte) : (setDt s b).dirty = s.dirty := rfl
@[simp] theorem setDt_randDraws (b : Byte) : (setDt s b).randDraws = s.randDraws := rfl

/-! ### `setSt` -/

@[simp] theorem setSt_mem (b : Byte) : (setSt s b).mem = s.mem := rfl
@[simp] theorem setSt_v (b : Byte) : (setSt s b).v = s.v := rfl
@[simp] theorem setSt_i (b : Byte) : (setSt s b).i = s.i := rfl
@[simp] theorem setSt_pc (b : Byte) : (setSt s b).pc = s.pc := rfl
@[simp] theorem setSt_stack (b : Byte) : (setSt s b).stack = s.stack := rfl
@[simp] theorem setSt_sp (b : Byte) : (setSt s b).sp = s.sp := rfl
@[simp] theorem setSt_dt (b : Byte) : (setSt s b).dt = s.dt := rfl
@[simp] theorem setSt_st (b : Byte) : (setSt s b).st = b := rfl
@[simp] theorem setSt_key (b : Byte) : (setSt s b).key = s.key := rfl
@[simp] theorem setSt_fb (b : Byte) : (setSt s b).fb = s.fb := rfl
@[simp] theorem setSt_dirty (b : Byte) : (setSt s b).dirty = s.dirty := rfl
@[simp] theorem setSt_randDraws (b : Byte) : (setSt s b).randDraws = s.randDraws := rfl

/-! ### `storeBytes` -/

@[simp] theorem storeBytes_mem (base : Nat) (bs : List Byte) : (storeBytes s base bs).mem = writeBytes s.mem base bs := rfl
@[simp] theorem storeBytes_v (base : Nat) (bs : List Byte) : (storeBytes s base bs).v = s.v := rfl
@[simp] theorem storeBytes_i (base : Nat) (bs : List Byte) : (storeBytes s base bs).i = s.i := rfl
@[simp] theorem storeBytes_pc (base : Nat) (bs : List Byte) : (storeBytes s base bs).pc = s.pc := rfl
@[simp] theorem storeBytes_stack (base : Nat) (bs : List Byte) : (storeBytes s base bs).stack = s.stack := rfl
@[simp] theorem storeBytes_sp (base : Nat) (bs : List Byte) : (storeBytes s base bs).sp = s.sp := rfl
@[simp] theorem storeBytes_dt (base : Nat) (bs : List Byte) : (storeBytes s base bs).dt = s.dt := rfl
@[simp] theorem storeBytes_st (base : Nat) (bs : List Byte) : (storeBytes s base bs).st = s.st := rfl
@[simp] theorem storeBytes_key (base : Nat) (bs : List Byte) : (storeBytes s base bs).key = s.key := rfl
@[simp] theorem storeBytes_fb (base : Nat) (bs : List Byte) : (storeBytes s base bs).fb = s.fb := rfl
@[simp] theorem storeBytes_dirty (base : Nat) (bs : List Byte) : (storeBytes s base bs).dirty = s.dirty := rfl
@[simp] theorem storeBytes_randDraws (base : Nat) (bs : List Byte) : (storeBytes s base bs).randDraws = s.randDraws := rfl

/-! ### `setKey` -/

@[simp] theorem setKey_mem (k : KeyIdx) (d : Bool) : (setKey s k d).mem = s.mem := rfl
@[simp] theorem setKey_v (k : KeyIdx) (d : Bool) : (setKey s k d).v = s.v := rfl
@[simp] theorem setKey_i (k : KeyIdx) (d : Bool) : (setKey s k d).i = s.i := rfl
@[simp] theorem setKey_pc (k : KeyIdx) (d : Bool) : (setKey s k d).pc = s.pc := rfl
@[simp] theorem setKey_stack (k : KeyIdx) (d : Bool) : (setKey s k d).stack = s.stack := rfl
@[simp] theorem setKey_sp (k : KeyIdx) (d : Bool) : (setKey s k d).sp = s.sp := rfl
@[simp] theorem setKey_dt (k : KeyIdx) (d : Bool) : (setKey s k d).dt = s.dt := rfl
@[simp] theorem setKey_st (k : KeyIdx) (d : Bool) : (setKey s k d).st = s.st := rfl
@[simp] theorem setKey_key (k : KeyIdx) (d : Bool) : (setKey s k d).key = s.key.set k.val d := rfl
@[simp] theorem setKey_fb (k : KeyIdx) (d : Bool) : (setKey s k d).fb = s.fb := rfl
@[simp] theorem setKey_dirty (k : KeyIdx) (d : Bool) : (setKey s k d).dirty = s.dirty := rfl
@[simp] theorem setKey_randDraws (k : KeyIdx) (d : Bool) : (setKey s k d).randDraws = s.randDraws := rfl

/-! ### `present` -/

@[simp] theorem present_mem (f : Framebuffer) : (present s f).mem = s.mem := rfl
@[simp] theorem present_v (f : Framebuffer) : (present s f).v = s.v := rfl
@[simp] theorem present_i (f : Framebuffer) : (present s f).i = s.i := rfl
@[simp] theorem present_pc (f : Framebuffer) : (present s f).pc = s.pc := rfl
@[simp] theorem present_stack (f : Framebuffer) : (present s f).stack = s.stack := rfl
@[simp] theorem present_sp (f : Framebuffer) : (present s f).sp = s.sp := rfl
@[simp] theorem present_dt (f : Framebuffer) : (present s f).dt = s.dt := rfl
@[simp] theorem present_st (f : Framebuffer) : (present s f).st = s.st := rfl
@[simp] theorem present_key (f : Framebuffer) : (present s f).key = s.key := rfl
@[simp] theorem present_fb (f : Framebuffer) : (present s f).fb = f := rfl
@[simp] theorem present_dirty (f : Framebuffer) : (present s f).dirty = true := rfl
@[simp] theorem present_randDraws (f : Framebuffer) : (present s f).randDraws = s.randDraws := rfl

/-! ### `countDraw` -/

@[simp] theorem countDraw_mem : (countDraw s).mem = s.mem := rfl
@[simp] theorem countDraw_v : (countDraw s).v = s.v := rfl
@[simp] theorem countDraw_i : (countDraw s).i = s.i := rfl
@[simp] theorem countDraw_pc : (countDraw s).pc = s.pc := rfl
@[simp] theorem countDraw_stack : (countDraw s).stack = s.stack := rfl
@[simp] theorem countDraw_sp : (countDraw s).sp = s.sp := rfl
@[simp] theorem countDraw_dt : (countDraw s).dt = s.dt := rfl
@[simp] theorem countDraw_st : (countDraw s).st = s.st := rfl
@[simp] theorem countDraw_key : (countDraw s).key = s.key := rfl
@[simp] theorem countDraw_fb : (countDraw s).fb = s.fb := rfl
@[simp] theorem countDraw_dirty : (countDraw s).dirty = s.dirty := rfl
@[simp] theorem countDraw_randDraws : (countDraw s).randDraws = s.randDraws + 1 := rfl

/-! ### `clearDirty` -/

@[simp] theorem clearDirty_mem : (clearDirty s).mem = s.mem := rfl
@[simp] theorem clearDirty_v : (clearDirty s).v = s.v := rfl
@[simp] theorem clearDirty_i : (clearDirty s).i = s.i := rfl
@[simp] theorem clearDirty_pc : (clearDirty s).pc = s.pc := rfl
@[simp] theorem clearDirty_stack : (clearDirty s).stack = s.stack := rfl
@[simp] theorem clearDirty_sp : (clearDirty s).sp = s.sp := rfl
@[simp] theorem clearDirty_dt : (clearDirty s).dt = s.dt := rfl
@[simp] theorem clearDirty_st : (clearDirty s).st = s.st := rfl
@[simp] theorem clearDirty_key : (clearDirty s).key = s.key := rfl
@[simp] theorem clearDirty_fb : (clearDirty s).fb = s.fb := rfl
@[simp] theorem clearDirty_dirty : (clearDirty s).dirty = false := rfl
@[simp] theorem clearDirty_randDraws : (clearDirty s).randDraws = s.randDraws := rfl

/-! ### `pushEntry` and `popEntry` -/

@[simp] theorem pushEntry_mem (w : Word) (h : s.sp.val < 16) : (pushEntry s w h).mem = s.mem := rfl
@[simp] theorem pushEntry_v (w : Word) (h : s.sp.val < 16) : (pushEntry s w h).v = s.v := rfl
@[simp] theorem pushEntry_i (w : Word) (h : s.sp.val < 16) : (pushEntry s w h).i = s.i := rfl
@[simp] theorem pushEntry_pc (w : Word) (h : s.sp.val < 16) : (pushEntry s w h).pc = s.pc := rfl
@[simp] theorem pushEntry_stack (w : Word) (h : s.sp.val < 16) : (pushEntry s w h).stack = s.stack.set s.sp.val w := rfl
@[simp] theorem pushEntry_sp (w : Word) (h : s.sp.val < 16) : (pushEntry s w h).sp.val = s.sp.val + 1 := rfl
@[simp] theorem pushEntry_dt (w : Word) (h : s.sp.val < 16) : (pushEntry s w h).dt = s.dt := rfl
@[simp] theorem pushEntry_st (w : Word) (h : s.sp.val < 16) : (pushEntry s w h).st = s.st := rfl
@[simp] theorem pushEntry_key (w : Word) (h : s.sp.val < 16) : (pushEntry s w h).key = s.key := rfl
@[simp] theorem pushEntry_fb (w : Word) (h : s.sp.val < 16) : (pushEntry s w h).fb = s.fb := rfl
@[simp] theorem pushEntry_dirty (w : Word) (h : s.sp.val < 16) : (pushEntry s w h).dirty = s.dirty := rfl
@[simp] theorem pushEntry_randDraws (w : Word) (h : s.sp.val < 16) : (pushEntry s w h).randDraws = s.randDraws := rfl

@[simp] theorem popEntry_mem : (popEntry s).mem = s.mem := rfl
@[simp] theorem popEntry_v : (popEntry s).v = s.v := rfl
@[simp] theorem popEntry_i : (popEntry s).i = s.i := rfl
@[simp] theorem popEntry_pc : (popEntry s).pc = s.pc := rfl
@[simp] theorem popEntry_stack : (popEntry s).stack = s.stack := rfl
@[simp] theorem popEntry_sp : (popEntry s).sp.val = s.sp.val - 1 := rfl
@[simp] theorem popEntry_dt : (popEntry s).dt = s.dt := rfl
@[simp] theorem popEntry_st : (popEntry s).st = s.st := rfl
@[simp] theorem popEntry_key : (popEntry s).key = s.key := rfl
@[simp] theorem popEntry_fb : (popEntry s).fb = s.fb := rfl
@[simp] theorem popEntry_dirty : (popEntry s).dirty = s.dirty := rfl
@[simp] theorem popEntry_randDraws : (popEntry s).randDraws = s.randDraws := rfl

/-! ### `skipIf` -/

@[simp] theorem skipIf_mem (c : Bool) : (skipIf c s).mem = s.mem := by cases c <;> rfl
@[simp] theorem skipIf_v (c : Bool) : (skipIf c s).v = s.v := by cases c <;> rfl
@[simp] theorem skipIf_i (c : Bool) : (skipIf c s).i = s.i := by cases c <;> rfl
@[simp] theorem skipIf_pc (c : Bool) : (skipIf c s).pc = if c then s.pc + 4 else s.pc + 2 := by
  cases c
  · rfl
  · show s.pc + 2 + 2 = s.pc + 4
    bv_omega
@[simp] theorem skipIf_stack (c : Bool) : (skipIf c s).stack = s.stack := by cases c <;> rfl
@[simp] theorem skipIf_sp (c : Bool) : (skipIf c s).sp = s.sp := by cases c <;> rfl
@[simp] theorem skipIf_dt (c : Bool) : (skipIf c s).dt = s.dt := by cases c <;> rfl
@[simp] theorem skipIf_st (c : Bool) : (skipIf c s).st = s.st := by cases c <;> rfl
@[simp] theorem skipIf_key (c : Bool) : (skipIf c s).key = s.key := by cases c <;> rfl
@[simp] theorem skipIf_fb (c : Bool) : (skipIf c s).fb = s.fb := by cases c <;> rfl
@[simp] theorem skipIf_dirty (c : Bool) : (skipIf c s).dirty = s.dirty := by cases c <;> rfl
@[simp] theorem skipIf_randDraws (c : Bool) : (skipIf c s).randDraws = s.randDraws := by cases c <;> rfl

/-! ### Reading registers -/

/-- A register read sees the register file alone. -/
theorem reg_congr {s t : State} (h : t.v = s.v) (r : RegIdx) : reg t r = reg s r := by
  unfold reg; rw [h]

/-- A write to one register is what that register holds afterwards, and no other changes (R22). -/
@[simp] theorem reg_setReg (x r : RegIdx) (b : Byte) : reg (setReg s x b) r = if r = x then b else reg s r := by
  unfold reg setReg
  rw [Vector.getElem_set]
  simp only [Fin.val_inj, eq_comm (a := x)]

@[simp] theorem reg_setFlag (r : RegIdx) (b : Bool) :
    reg (setFlag s b) r = if r = flagReg then flagByte b else reg s r := reg_setReg s flagReg r _

/-- The flag is written last: it is what `VF` holds, whatever `X` is (R160). -/
@[simp] theorem reg_setFlagged (x r : RegIdx) (res : FlaggedResult) :
    reg (setFlagged s x res) r =
      if r = flagReg then flagByte res.flag else if r = x then res.value else reg s r := by
  unfold setFlagged
  rw [reg_setFlag, reg_setReg]

@[simp] theorem reg_loadRegsFrom (x r : RegIdx) (base : Nat) :
    reg (loadRegsFrom s x base) r = if r ≤ x then byteAt s.mem (base + r.val) else reg s r := by
  unfold reg loadRegsFrom
  simp

@[simp] theorem reg_jumpTo (w : Word) (r : RegIdx) : reg (jumpTo s w) r = reg s r := rfl
@[simp] theorem reg_advance (r : RegIdx) : reg (advance s) r = reg s r := rfl
@[simp] theorem reg_setI (w : Word) (r : RegIdx) : reg (setI s w) r = reg s r := rfl
@[simp] theorem reg_bumpIndex (x : RegIdx) (r : RegIdx) : reg (bumpIndex s x) r = reg s r := rfl
@[simp] theorem reg_setDt (b : Byte) (r : RegIdx) : reg (setDt s b) r = reg s r := rfl
@[simp] theorem reg_setSt (b : Byte) (r : RegIdx) : reg (setSt s b) r = reg s r := rfl
@[simp] theorem reg_storeBytes (base : Nat) (bs : List Byte) (r : RegIdx) : reg (storeBytes s base bs) r = reg s r := rfl
@[simp] theorem reg_setKey (k : KeyIdx) (d : Bool) (r : RegIdx) : reg (setKey s k d) r = reg s r := rfl
@[simp] theorem reg_present (f : Framebuffer) (r : RegIdx) : reg (present s f) r = reg s r := rfl
@[simp] theorem reg_countDraw (r : RegIdx) : reg (countDraw s) r = reg s r := rfl
@[simp] theorem reg_clearDirty (r : RegIdx) : reg (clearDirty s) r = reg s r := rfl
@[simp] theorem reg_pushEntry (w : Word) (h : s.sp.val < 16) (r : RegIdx) : reg (pushEntry s w h) r = reg s r := rfl
@[simp] theorem reg_popEntry (r : RegIdx) : reg (popEntry s) r = reg s r := rfl
@[simp] theorem reg_skipIf (c : Bool) (r : RegIdx) : reg (skipIf c s) r = reg s r := reg_congr (skipIf_v s c) r

/-! ### Reading keys -/

/-- A write to one key is what that key holds afterwards, and no other changes (R254, R255). -/
@[simp] theorem keyIsDown_setKey (k j : KeyIdx) (d : Bool) :
    keyIsDown (setKey s k d) j = if j = k then d else keyIsDown s j := by
  unfold keyIsDown setKey
  rw [Vector.getElem_set]
  simp only [Fin.val_inj, eq_comm (a := k)]

@[simp] theorem keyIsDown_jumpTo (w : Word) (j : KeyIdx) : keyIsDown (jumpTo s w) j = keyIsDown s j := rfl
@[simp] theorem keyIsDown_advance (j : KeyIdx) : keyIsDown (advance s) j = keyIsDown s j := rfl
@[simp] theorem keyIsDown_setReg (x : RegIdx) (b : Byte) (j : KeyIdx) : keyIsDown (setReg s x b) j = keyIsDown s j := rfl
@[simp] theorem keyIsDown_setFlag (b : Bool) (j : KeyIdx) : keyIsDown (setFlag s b) j = keyIsDown s j := rfl
@[simp] theorem keyIsDown_setFlagged (x : RegIdx) (r : FlaggedResult) (j : KeyIdx) : keyIsDown (setFlagged s x r) j = keyIsDown s j := rfl
@[simp] theorem keyIsDown_loadRegsFrom (x : RegIdx) (base : Nat) (j : KeyIdx) : keyIsDown (loadRegsFrom s x base) j = keyIsDown s j := rfl
@[simp] theorem keyIsDown_setI (w : Word) (j : KeyIdx) : keyIsDown (setI s w) j = keyIsDown s j := rfl
@[simp] theorem keyIsDown_bumpIndex (x : RegIdx) (j : KeyIdx) : keyIsDown (bumpIndex s x) j = keyIsDown s j := rfl
@[simp] theorem keyIsDown_setDt (b : Byte) (j : KeyIdx) : keyIsDown (setDt s b) j = keyIsDown s j := rfl
@[simp] theorem keyIsDown_setSt (b : Byte) (j : KeyIdx) : keyIsDown (setSt s b) j = keyIsDown s j := rfl
@[simp] theorem keyIsDown_storeBytes (base : Nat) (bs : List Byte) (j : KeyIdx) : keyIsDown (storeBytes s base bs) j = keyIsDown s j := rfl
@[simp] theorem keyIsDown_present (f : Framebuffer) (j : KeyIdx) : keyIsDown (present s f) j = keyIsDown s j := rfl
@[simp] theorem keyIsDown_countDraw (j : KeyIdx) : keyIsDown (countDraw s) j = keyIsDown s j := rfl
@[simp] theorem keyIsDown_clearDirty (j : KeyIdx) : keyIsDown (clearDirty s) j = keyIsDown s j := rfl
@[simp] theorem keyIsDown_pushEntry (w : Word) (h : s.sp.val < 16) (j : KeyIdx) :
    keyIsDown (pushEntry s w h) j = keyIsDown s j := rfl
@[simp] theorem keyIsDown_popEntry (j : KeyIdx) : keyIsDown (popEntry s) j = keyIsDown s j := rfl
@[simp] theorem keyIsDown_skipIf (c : Bool) (j : KeyIdx) : keyIsDown (skipIf c s) j = keyIsDown s j := by
  cases c <;> rfl

/-! ### Program counter -/

@[simp] theorem nextPc_eq : nextPc s = s.pc + 2 := rfl

/-! ### Flags as bytes -/

/-- A flag byte is 0 or 1 (R23). -/
theorem flagByte_eq_zero_or_one (b : Bool) : flagByte b = 0 ∨ flagByte b = 1 := by cases b <;> decide

@[simp] theorem flagByte_true : flagByte true = 1 := rfl
@[simp] theorem flagByte_false : flagByte false = 0 := rfl

end Sys2Proof.Machine
end

