-- ==== Sys2Proof/Laws/Ops.lean ====
section
/-! SUPPORT. What each shared operation of Machine/Ops.lean does, said once: the range check, the fetch, the call
stack, the keypad, and the flag computations. -/

namespace Sys2Proof.Machine

/-! ### The range check (R63) -/

theorem withRange_of_inRange {base n : Nat} (h : inRange base n = true) (k : Outcome) : withRange base n k = k := by
  rw [withRange, if_pos h]

/-- Out of range the operation raises, with the lowest offending address, whatever it would have done (R284). -/
theorem withRange_of_not_inRange {base n : Nat} (h : ¬inRange base n = true) (k : Outcome) :
    withRange base n k = .fault (.memoryOutOfRange (max base memSize)) := by
  rw [withRange, if_neg h]
  rfl

/-- A checked operation that answers a next state was in range. -/
theorem withRange_next {base n : Nat} {k : Outcome} {t : State} (h : withRange base n k = .next t) :
    inRange base n = true ∧ k = .next t := by
  by_cases hr : inRange base n = true
  · exact ⟨hr, by rwa [withRange_of_inRange hr] at h⟩
  · rw [withRange_of_not_inRange hr] at h
    cases h

/-! ### Stores (R66) -/

/-- A store into valid addresses keeps the canonical form of memory. -/
theorem wf_storeBytes {s : State} (h : Memory.wf s.mem = true) {base : Nat} {bytes : List Byte}
    (hr : base + bytes.length ≤ memSize) : Memory.wf (storeBytes s base bytes).mem = true := wf_writeBytes h hr

/-! ### The fetch (R120, R121) -/

theorem fetch_of_le {s : State} (h : s.pc.toNat ≤ 0xFFE) : fetch s = .ok (wordAt s.mem s.pc.toNat) := by
  rw [fetch, if_pos ((inRange_pos (by decide)).2 (by unfold memSize; omega))]

theorem fetch_of_gt {s : State} (h : 0xFFE < s.pc.toNat) : fetch s = .error (.memoryOutOfRange s.pc.toNat) := by
  rw [fetch, if_neg]
  rw [inRange_pos (by decide)]
  unfold memSize
  omega

/-- A fetch that gives a word was in range and read it at `PC`. -/
theorem fetch_ok {s : State} {w : Word} (h : fetch s = .ok w) :
    s.pc.toNat ≤ 0xFFE ∧ w = wordAt s.mem s.pc.toNat := by
  rcases Nat.lt_or_ge 0xFFE s.pc.toNat with hgt | hle
  · rw [fetch_of_gt hgt] at h
    cases h
  · rw [fetch_of_le hle] at h
    exact ⟨hle, (Except.ok.inj h).symm⟩

/-- The fetch reads `PC` and memory alone. -/
theorem fetch_congr {s t : State} (hpc : t.pc = s.pc) (hmem : t.mem = s.mem) : fetch t = fetch s := by
  unfold fetch
  rw [hpc, hmem]

/-! ### The call stack (R142, R143) -/

theorem push?_of_lt {s : State} (hlt : s.sp.val < 16) (w : Word) : push? s w = some (pushEntry s w hlt) := by
  rw [push?, dif_pos hlt]

/-- A push that succeeds had room. -/
theorem push?_some {s t : State} {w : Word} (h : push? s w = some t) : ∃ hlt : s.sp.val < 16, t = pushEntry s w hlt := by
  unfold push? at h
  split at h
  · rename_i hlt
    exact ⟨hlt, (Option.some.inj h).symm⟩
  · cases h

theorem push?_eq_none {s : State} {w : Word} : push? s w = none ↔ s.sp.val = 16 := by
  unfold push?
  have := s.sp.isLt
  split <;> simp <;> omega

theorem pop?_of_pos {s : State} (hpos : 0 < s.sp.val) (hlt : s.sp.val - 1 < 16) :
    pop? s = some (s.stack[s.sp.val - 1], popEntry s) := by
  rw [pop?, dif_pos hpos]

/-- A pop that succeeds had an entry, and gives the one `SP` then uncovers. -/
theorem pop?_some {s t : State} {w : Word} (h : pop? s = some (w, t)) :
    ∃ hlt : s.sp.val - 1 < 16, 0 < s.sp.val ∧ w = s.stack[s.sp.val - 1] ∧ t = popEntry s := by
  unfold pop? at h
  split at h
  · rename_i hpos
    obtain ⟨rfl, rfl⟩ := Prod.mk.inj (Option.some.inj h)
    exact ⟨by have := s.sp.isLt; omega, hpos, rfl, rfl⟩
  · cases h

theorem pop?_eq_none {s : State} : pop? s = none ↔ s.sp.val = 0 := by
  unfold pop?
  split <;> simp <;> omega

/-! ### The keypad (R232, R237) -/

theorem keyIndex?_of_lt {v : Byte} (h : v.toNat < 16) : keyIndex? v = some ⟨v.toNat, h⟩ := by
  rw [keyIndex?, dif_pos h]

theorem keyIndex?_eq_none {v : Byte} : keyIndex? v = none ↔ 15 < v.toNat := by
  unfold keyIndex?
  split <;> simp <;> omega

/-- What the two key skips do when the value names a key. -/
theorem skipOnKey_of_some {consumes level : Bool} {x : RegIdx} {s : State} {k : KeyIdx}
    (h : keyIndex? (reg s x) = some k) :
    skipOnKey consumes level x s =
      .next (skipIf (keyIsDown s k == level) (if consumes && keyIsDown s k then setKey s k false else s)) := by
  unfold skipOnKey
  rw [h]

/-- What the two key skips do when the value names none (R285). -/
theorem skipOnKey_of_none {consumes level : Bool} {x : RegIdx} {s : State} (h : keyIndex? (reg s x) = none) :
    skipOnKey consumes level x s = .fault (.keyIndexOutOfRange (reg s x)) := by
  unfold skipOnKey
  rw [h]
  rfl

/-- No key is reported exactly when none is down, under either priority. -/
theorem downKey?_eq_none {p : Config.KeyPriority} {s : State} : downKey? p s = none ↔ ∀ k, keyIsDown s k = false := by
  cases p <;> simp [downKey?, List.find?_eq_none]

/-- The key reported is down. -/
theorem keyIsDown_of_downKey? {p : Config.KeyPriority} {s : State} {k : KeyIdx} (h : downKey? p s = some k) :
    keyIsDown s k = true := by
  cases p <;> exact List.find?_some h

/-- In a list in strict order the first hit of a search comes before every other hit. -/
theorem find?_first {α : Type} {R : α → α → Prop} {q : α → Bool} {l : List α} (hl : l.Pairwise R) {k j : α}
    (h : l.find? q = some k) (hj : j ∈ l) (hq : q j = true) : j = k ∨ R k j := by
  induction l with
  | nil => cases hj
  | cons a l ih =>
    rw [List.pairwise_cons] at hl
    rw [List.find?_cons] at h
    split at h <;> rename_i ha
    · cases h
      rcases List.mem_cons.1 hj with rfl | hj
      · exact .inl rfl
      · exact .inr (hl.1 j hj)
    · rcases List.mem_cons.1 hj with rfl | hj
      · rw [hq] at ha
        cases ha
      · exact ih hl.2 h hj

/-- Under `lowest` every other key that is down has a higher index (D16). -/
theorem downKey?_lowest {s : State} {k j : KeyIdx} (h : downKey? .lowest s = some k) (hj : keyIsDown s j = true) :
    k ≤ j := by
  rcases find?_first (List.pairwise_lt_finRange 16) h (List.mem_finRange j) hj with rfl | hlt
  · exact le_refl _
  · exact le_of_lt hlt

/-- Under `highest` every other key that is down has a lower index (D16). -/
theorem downKey?_highest {s : State} {k j : KeyIdx} (h : downKey? .highest s = some k) (hj : keyIsDown s j = true) :
    j ≤ k := by
  have hp : (List.finRange 16).reverse.Pairwise (fun a b => b < a) := by
    rw [List.pairwise_reverse]
    exact List.pairwise_lt_finRange 16
  rcases find?_first hp h (List.mem_reverse.2 (List.mem_finRange j)) hj with rfl | hlt
  · exact le_refl _
  · exact le_of_lt hlt

/-! ### Results and flags (R160 to R173) -/

/-- The sum is the machine's own eight-bit addition, its flag the exact sum beyond 255 (R167). -/
theorem addFlags_eq (a b : Byte) : addFlags a b = ⟨a + b, 255 < a.toNat + b.toNat⟩ := by
  simp only [addFlags, BitVec.ofNat_add, BitVec.ofNat_toNat, BitVec.setWidth_eq]

/-- The difference is eight-bit subtraction, its flag the comparison (R168). -/
theorem subFlags_eq (a b : Byte) : subFlags a b = ⟨a - b, b.toNat ≤ a.toNat⟩ := by
  unfold subFlags
  congr 1
  apply BitVec.eq_of_toNat_eq
  have := a.isLt
  have := b.isLt
  simp [BitVec.toNat_sub]
  omega

theorem addWrap_eq (a b : Byte) : addWrap a b = a + b := by
  apply BitVec.eq_of_toNat_eq
  simp [addWrap]

/-! ### Lengths of the runs stored -/

@[simp] theorem length_decimalDigits (v : Byte) : (decimalDigits v).length = 3 := rfl

@[simp] theorem length_regsUpTo (s : State) (x : RegIdx) : (regsUpTo s x).length = x.val + 1 := by
  have := x.isLt
  simp [regsUpTo]

/-- The `k`-th byte DUMP_REGS stores is `V[k]` (R194). -/
theorem getElem?_regsUpTo (s : State) (x : RegIdx) (k : Fin 16) (h : k ≤ x) : (regsUpTo s x)[k.val]? = some (reg s k) := by
  have hk := k.isLt
  have : k.val < x.val + 1 := Nat.lt_succ_of_le h
  simp [regsUpTo, reg, this]

end Sys2Proof.Machine
end

