-- ==== Sys2Proof/Laws/PerInstr.lean ====
section
/-! SUPPORT. Statements made per instruction. EncodedKind: the word the encoder gives a well-formed instruction has, in
the opcode map of spec/30_encoding.md R96, the instruction's own kind. -/

namespace Sys2Proof

/-- The word of an UNKNOWN (R99) matches no row. -/
theorem tableKind_of_isUnknownWord {w : Word} (h : isUnknownWord w = true) : tableKind w = .unknown := by
  have := w.isLt
  have hnone : opcodeRows.find? (rowMatches · w) = none := by
    rw [List.find?_eq_none]
    simp only [opcodeRows, opcodeRowsLow, opcodeRowsAlu, opcodeRowsHigh, List.cons_append, List.nil_append,
      List.forall_mem_cons, rowMatches_F000, rowMatches_F00F, rowMatches_F0FF, toNat_wordFamily, toNat_wordN,
      toNat_wordNN, decide_eq_true_iff]
    simp [isUnknownWord] at h ⊢
    split_ifs at h <;> simp_all <;> omega
  rw [tableKind, hnone]

namespace Laws.EncodedKind

/-- A well-formed instruction's word is of the instruction's kind (R96). -/
def Statement (i : Instr) : Prop := WellFormed i = true → tableKind (encode i) = i.kind

theorem clear : Statement .clear := fun _ => by
  decide

theorem ret : Statement .ret := fun _ => by
  decide

theorem jump (nnn : Imm12) : Statement (.jump nnn) := fun _ => by
  simp only [tableKind, opcodeRows, opcodeRowsLow, opcodeRowsAlu, opcodeRowsHigh, List.cons_append, List.nil_append,
    List.find?, rowMatches_F000, rowMatches_F00F, rowMatches_F0FF, encode]
  simp [Instr.kind]

theorem call (nnn : Imm12) : Statement (.call nnn) := fun _ => by
  simp only [tableKind, opcodeRows, opcodeRowsLow, opcodeRowsAlu, opcodeRowsHigh, List.cons_append, List.nil_append,
    List.find?, rowMatches_F000, rowMatches_F00F, rowMatches_F0FF, encode]
  simp [Instr.kind]

theorem skipEqImm (x : RegIdx) (nn : Byte) : Statement (.skipEqImm x nn) := fun _ => by
  simp only [tableKind, opcodeRows, opcodeRowsLow, opcodeRowsAlu, opcodeRowsHigh, List.cons_append, List.nil_append,
    List.find?, rowMatches_F000, rowMatches_F00F, rowMatches_F0FF, encode]
  simp [Instr.kind]

theorem skipNeqImm (x : RegIdx) (nn : Byte) : Statement (.skipNeqImm x nn) := fun _ => by
  simp only [tableKind, opcodeRows, opcodeRowsLow, opcodeRowsAlu, opcodeRowsHigh, List.cons_append, List.nil_append,
    List.find?, rowMatches_F000, rowMatches_F00F, rowMatches_F0FF, encode]
  simp [Instr.kind]

theorem skipEqReg (x y : RegIdx) : Statement (.skipEqReg x y) := fun _ => by
  simp only [tableKind, opcodeRows, opcodeRowsLow, opcodeRowsAlu, opcodeRowsHigh, List.cons_append, List.nil_append,
    List.find?, rowMatches_F000, rowMatches_F00F, rowMatches_F0FF, encode]
  simp [Instr.kind]

theorem skipNeqReg (x y : RegIdx) : Statement (.skipNeqReg x y) := fun _ => by
  simp only [tableKind, opcodeRows, opcodeRowsLow, opcodeRowsAlu, opcodeRowsHigh, List.cons_append, List.nil_append,
    List.find?, rowMatches_F000, rowMatches_F00F, rowMatches_F0FF, encode]
  simp [Instr.kind]

theorem setImm (x : RegIdx) (nn : Byte) : Statement (.setImm x nn) := fun _ => by
  simp only [tableKind, opcodeRows, opcodeRowsLow, opcodeRowsAlu, opcodeRowsHigh, List.cons_append, List.nil_append,
    List.find?, rowMatches_F000, rowMatches_F00F, rowMatches_F0FF, encode]
  simp [Instr.kind]

theorem addImm (x : RegIdx) (nn : Byte) : Statement (.addImm x nn) := fun _ => by
  simp only [tableKind, opcodeRows, opcodeRowsLow, opcodeRowsAlu, opcodeRowsHigh, List.cons_append, List.nil_append,
    List.find?, rowMatches_F000, rowMatches_F00F, rowMatches_F0FF, encode]
  simp [Instr.kind]

theorem setReg (x y : RegIdx) : Statement (.setReg x y) := fun _ => by
  simp only [tableKind, opcodeRows, opcodeRowsLow, opcodeRowsAlu, opcodeRowsHigh, List.cons_append, List.nil_append,
    List.find?, rowMatches_F000, rowMatches_F00F, rowMatches_F0FF, encode]
  simp [Instr.kind]

theorem orReg (x y : RegIdx) : Statement (.orReg x y) := fun _ => by
  simp only [tableKind, opcodeRows, opcodeRowsLow, opcodeRowsAlu, opcodeRowsHigh, List.cons_append, List.nil_append,
    List.find?, rowMatches_F000, rowMatches_F00F, rowMatches_F0FF, encode]
  simp [Instr.kind]

theorem andReg (x y : RegIdx) : Statement (.andReg x y) := fun _ => by
  simp only [tableKind, opcodeRows, opcodeRowsLow, opcodeRowsAlu, opcodeRowsHigh, List.cons_append, List.nil_append,
    List.find?, rowMatches_F000, rowMatches_F00F, rowMatches_F0FF, encode]
  simp [Instr.kind]

theorem xorReg (x y : RegIdx) : Statement (.xorReg x y) := fun _ => by
  simp only [tableKind, opcodeRows, opcodeRowsLow, opcodeRowsAlu, opcodeRowsHigh, List.cons_append, List.nil_append,
    List.find?, rowMatches_F000, rowMatches_F00F, rowMatches_F0FF, encode]
  simp [Instr.kind]

theorem addReg (x y : RegIdx) : Statement (.addReg x y) := fun _ => by
  simp only [tableKind, opcodeRows, opcodeRowsLow, opcodeRowsAlu, opcodeRowsHigh, List.cons_append, List.nil_append,
    List.find?, rowMatches_F000, rowMatches_F00F, rowMatches_F0FF, encode]
  simp [Instr.kind]

theorem subFwd (x y : RegIdx) : Statement (.subFwd x y) := fun _ => by
  simp only [tableKind, opcodeRows, opcodeRowsLow, opcodeRowsAlu, opcodeRowsHigh, List.cons_append, List.nil_append,
    List.find?, rowMatches_F000, rowMatches_F00F, rowMatches_F0FF, encode]
  simp [Instr.kind]

theorem shiftRight (x y : RegIdx) : Statement (.shiftRight x y) := fun _ => by
  simp only [tableKind, opcodeRows, opcodeRowsLow, opcodeRowsAlu, opcodeRowsHigh, List.cons_append, List.nil_append,
    List.find?, rowMatches_F000, rowMatches_F00F, rowMatches_F0FF, encode]
  simp [Instr.kind]

theorem subRev (x y : RegIdx) : Statement (.subRev x y) := fun _ => by
  simp only [tableKind, opcodeRows, opcodeRowsLow, opcodeRowsAlu, opcodeRowsHigh, List.cons_append, List.nil_append,
    List.find?, rowMatches_F000, rowMatches_F00F, rowMatches_F0FF, encode]
  simp [Instr.kind]

theorem shiftLeft (x y : RegIdx) : Statement (.shiftLeft x y) := fun _ => by
  simp only [tableKind, opcodeRows, opcodeRowsLow, opcodeRowsAlu, opcodeRowsHigh, List.cons_append, List.nil_append,
    List.find?, rowMatches_F000, rowMatches_F00F, rowMatches_F0FF, encode]
  simp [Instr.kind]

theorem setIndex (nnn : Imm12) : Statement (.setIndex nnn) := fun _ => by
  simp only [tableKind, opcodeRows, opcodeRowsLow, opcodeRowsAlu, opcodeRowsHigh, List.cons_append, List.nil_append,
    List.find?, rowMatches_F000, rowMatches_F00F, rowMatches_F0FF, encode]
  simp [Instr.kind]

theorem jumpOffset (nnn : Imm12) : Statement (.jumpOffset nnn) := fun _ => by
  simp only [tableKind, opcodeRows, opcodeRowsLow, opcodeRowsAlu, opcodeRowsHigh, List.cons_append, List.nil_append,
    List.find?, rowMatches_F000, rowMatches_F00F, rowMatches_F0FF, encode]
  simp [Instr.kind]

theorem rand (x : RegIdx) (nn : Byte) : Statement (.rand x nn) := fun _ => by
  simp only [tableKind, opcodeRows, opcodeRowsLow, opcodeRowsAlu, opcodeRowsHigh, List.cons_append, List.nil_append,
    List.find?, rowMatches_F000, rowMatches_F00F, rowMatches_F0FF, encode]
  simp [Instr.kind]

theorem draw (x y : RegIdx) (n : Fin 16) : Statement (.draw x y n) := fun _ => by
  simp only [tableKind, opcodeRows, opcodeRowsLow, opcodeRowsAlu, opcodeRowsHigh, List.cons_append, List.nil_append,
    List.find?, rowMatches_F000, rowMatches_F00F, rowMatches_F0FF, encode]
  simp [Instr.kind]

theorem skipKeyDown (x : RegIdx) : Statement (.skipKeyDown x) := fun _ => by
  simp only [tableKind, opcodeRows, opcodeRowsLow, opcodeRowsAlu, opcodeRowsHigh, List.cons_append, List.nil_append,
    List.find?, rowMatches_F000, rowMatches_F00F, rowMatches_F0FF, encode]
  simp [Instr.kind]

theorem skipKeyUp (x : RegIdx) : Statement (.skipKeyUp x) := fun _ => by
  simp only [tableKind, opcodeRows, opcodeRowsLow, opcodeRowsAlu, opcodeRowsHigh, List.cons_append, List.nil_append,
    List.find?, rowMatches_F000, rowMatches_F00F, rowMatches_F0FF, encode]
  simp [Instr.kind]

theorem getDelay (x : RegIdx) : Statement (.getDelay x) := fun _ => by
  simp only [tableKind, opcodeRows, opcodeRowsLow, opcodeRowsAlu, opcodeRowsHigh, List.cons_append, List.nil_append,
    List.find?, rowMatches_F000, rowMatches_F00F, rowMatches_F0FF, encode]
  simp [Instr.kind]

theorem waitKey (x : RegIdx) : Statement (.waitKey x) := fun _ => by
  simp only [tableKind, opcodeRows, opcodeRowsLow, opcodeRowsAlu, opcodeRowsHigh, List.cons_append, List.nil_append,
    List.find?, rowMatches_F000, rowMatches_F00F, rowMatches_F0FF, encode]
  simp [Instr.kind]

theorem setDelay (x : RegIdx) : Statement (.setDelay x) := fun _ => by
  simp only [tableKind, opcodeRows, opcodeRowsLow, opcodeRowsAlu, opcodeRowsHigh, List.cons_append, List.nil_append,
    List.find?, rowMatches_F000, rowMatches_F00F, rowMatches_F0FF, encode]
  simp [Instr.kind]

theorem setSound (x : RegIdx) : Statement (.setSound x) := fun _ => by
  simp only [tableKind, opcodeRows, opcodeRowsLow, opcodeRowsAlu, opcodeRowsHigh, List.cons_append, List.nil_append,
    List.find?, rowMatches_F000, rowMatches_F00F, rowMatches_F0FF, encode]
  simp [Instr.kind]

theorem addIndex (x : RegIdx) : Statement (.addIndex x) := fun _ => by
  simp only [tableKind, opcodeRows, opcodeRowsLow, opcodeRowsAlu, opcodeRowsHigh, List.cons_append, List.nil_append,
    List.find?, rowMatches_F000, rowMatches_F00F, rowMatches_F0FF, encode]
  simp [Instr.kind]

theorem setIndexFont (x : RegIdx) : Statement (.setIndexFont x) := fun _ => by
  simp only [tableKind, opcodeRows, opcodeRowsLow, opcodeRowsAlu, opcodeRowsHigh, List.cons_append, List.nil_append,
    List.find?, rowMatches_F000, rowMatches_F00F, rowMatches_F0FF, encode]
  simp [Instr.kind]

theorem storeBcd (x : RegIdx) : Statement (.storeBcd x) := fun _ => by
  simp only [tableKind, opcodeRows, opcodeRowsLow, opcodeRowsAlu, opcodeRowsHigh, List.cons_append, List.nil_append,
    List.find?, rowMatches_F000, rowMatches_F00F, rowMatches_F0FF, encode]
  simp [Instr.kind]

theorem dumpRegs (x : RegIdx) : Statement (.dumpRegs x) := fun _ => by
  simp only [tableKind, opcodeRows, opcodeRowsLow, opcodeRowsAlu, opcodeRowsHigh, List.cons_append, List.nil_append,
    List.find?, rowMatches_F000, rowMatches_F00F, rowMatches_F0FF, encode]
  simp [Instr.kind]

theorem loadRegs (x : RegIdx) : Statement (.loadRegs x) := fun _ => by
  simp only [tableKind, opcodeRows, opcodeRowsLow, opcodeRowsAlu, opcodeRowsHigh, List.cons_append, List.nil_append,
    List.find?, rowMatches_F000, rowMatches_F00F, rowMatches_F0FF, encode]
  simp [Instr.kind]

theorem unknown (w : Word) : Statement (.unknown w) := fun h => tableKind_of_isUnknownWord h

end Laws.EncodedKind

end Sys2Proof
end

