-- ==== Sys2Proof/Laws/Step.lean ====
section
/-! SUPPORT. The meanings that can stop, taken apart once: an instruction that answers a next state met its condition,
and that state is the one named. Every other meaning is `.next` of its effect by definition. And the step: it is the
meaning of the word at `PC`, or the fetch's error (spec/40_step_cycle.md R120). -/

namespace Sys2Proof.Machine

variable {s t : State}

/-! ### Control flow -/

theorem execCall_next {nnn : Imm12} (h : execCall nnn s = .next t) :
    ∃ hlt : s.sp.val < 16, t = jumpTo (pushEntry s (s.pc + 2) hlt) (immAddr nnn) := by
  unfold execCall at h
  split at h
  · cases h
  · rename_i s' hs
    obtain ⟨hlt, rfl⟩ := push?_some hs
    exact ⟨hlt, (Host.Outcome.next.inj h).symm⟩

theorem execRet_next (h : execRet s = .next t) :
    ∃ hlt : s.sp.val - 1 < 16, 0 < s.sp.val ∧ t = jumpTo (popEntry s) s.stack[s.sp.val - 1] := by
  unfold execRet at h
  split at h
  · cases h
  · rename_i w s' hs
    obtain ⟨hlt, hpos, rfl, rfl⟩ := pop?_some hs
    exact ⟨hlt, hpos, (Host.Outcome.next.inj h).symm⟩

/-! ### Memory and display -/

theorem execStoreBcd_next {x : RegIdx} (h : execStoreBcd x s = .next t) :
    s.i.toNat + 3 ≤ memSize ∧ t = advance (storeBytes s s.i.toNat (decimalDigits (reg s x))) := by
  obtain ⟨hr, ht⟩ := withRange_next h
  exact ⟨(inRange_pos (by decide)).1 hr, (Host.Outcome.next.inj ht).symm⟩

theorem execDumpRegs_next {x : RegIdx} (h : execDumpRegs x s = .next t) :
    s.i.toNat + (x.val + 1) ≤ memSize ∧ t = advance (bumpIndex (storeBytes s s.i.toNat (regsUpTo s x)) x) := by
  obtain ⟨hr, ht⟩ := withRange_next h
  exact ⟨(inRange_pos (by omega)).1 hr, (Host.Outcome.next.inj ht).symm⟩

theorem execLoadRegs_next {x : RegIdx} (h : execLoadRegs x s = .next t) :
    s.i.toNat + (x.val + 1) ≤ memSize ∧ t = advance (bumpIndex (loadRegsFrom s x s.i.toNat) x) := by
  obtain ⟨hr, ht⟩ := withRange_next h
  exact ⟨(inRange_pos (by omega)).1 hr, (Host.Outcome.next.inj ht).symm⟩

theorem drawWith_next {p : Config.EdgePolicy} {x y : RegIdx} {n : Fin 16} (h : drawWith p x y n s = .next t) :
    (n.val = 0 ∨ s.i.toNat + n.val ≤ memSize) ∧ ∃ fb c, t = advance (setFlag (present s fb) c) := by
  obtain ⟨hr, ht⟩ := withRange_next h
  exact ⟨inRange_iff.1 hr, _, _, (Host.Outcome.next.inj ht).symm⟩

/-! ### The keypad -/

theorem skipOnKey_next {consumes level : Bool} {x : RegIdx} (h : skipOnKey consumes level x s = .next t) :
    ∃ k : KeyIdx, (reg s x).toNat = k.val ∧
      t = skipIf (keyIsDown s k == level) (if consumes && keyIsDown s k then setKey s k false else s) := by
  rcases Nat.lt_or_ge (reg s x).toNat 16 with hlt | hge
  · rw [skipOnKey_of_some (keyIndex?_of_lt hlt)] at h
    exact ⟨_, rfl, (Host.Outcome.next.inj h).symm⟩
  · rw [skipOnKey_of_none (keyIndex?_eq_none.2 (by omega))] at h
    cases h

theorem waitKeyWith_next {p : Config.KeyPriority} {x : RegIdx} (h : waitKeyWith p x s = .next t) :
    (downKey? p s = none ∧ t = s) ∨
    ∃ k, downKey? p s = some k ∧ t = advance (setKey (setReg s x (BitVec.ofNat 8 k.val)) k false) := by
  unfold waitKeyWith at h
  split at h
  · rename_i hk
    exact .inl ⟨hk, (Host.Outcome.next.inj h).symm⟩
  · rename_i k hk
    exact .inr ⟨k, hk, (Host.Outcome.next.inj h).symm⟩

/-! ### The step -/

theorem step_of_le (h : s.pc.toNat ≤ 0xFFE) : step s = exec (decode (wordAt s.mem s.pc.toNat)) s := by
  rw [step, fetch_of_le h]

theorem step_of_gt (h : 0xFFE < s.pc.toNat) : step s = .fault (.memoryOutOfRange s.pc.toNat) := by
  rw [step, fetch_of_gt h]
  rfl

/-- A step that answers a next state fetched a word and ran it. -/
theorem step_next (h : step s = .next t) :
    s.pc.toNat ≤ 0xFFE ∧ exec (decode (wordAt s.mem s.pc.toNat)) s = .next t := by
  rcases Nat.lt_or_ge 0xFFE s.pc.toNat with hgt | hle
  · rw [step_of_gt hgt] at h
    cases h
  · exact ⟨hle, by rwa [step_of_le hle] at h⟩

theorem stepWith_of_le (byte : Byte) (h : s.pc.toNat ≤ 0xFFE) :
    stepWith byte s = execWith byte (decode (wordAt s.mem s.pc.toNat)) s := by
  rw [stepWith, fetch_of_le h]

theorem stepWith_of_gt (byte : Byte) (h : 0xFFE < s.pc.toNat) :
    stepWith byte s = .fault (.memoryOutOfRange s.pc.toNat) := by
  rw [stepWith, fetch_of_gt h]
  rfl

/-- Every kind but RAND ignores the host's random byte. -/
theorem execWith_of_ne (byte : Byte) {i : Instr} (h : i.kind ≠ .rand) (s : State) : execWith byte i s = exec i s := by
  cases i <;> first | rfl | exact absurd rfl h

end Sys2Proof.Machine
end

