-- ==== Sys2Proof/Tests/Slice0.lean ====
section
/-! SUPPORT. Tests: the well-formedness check, one word per constructor written out from its encoding, single steps with
the results of spec/95_test_vectors.md, and for every statement with hypotheses a witness that meets them. -/

namespace Sys2Proof.Tests

open Sys2Proof.Machine

/-! ### Helpers: small states, one step, and what is looked at -/

/-- Reset, changed in the registers listed. -/
def withRegs (regs : List (RegIdx × Byte)) (s : State := State.reset) : State :=
  regs.foldl (fun t p => setReg t p.1 p.2) s

/-- The index register and bytes of memory from it on. -/
def withBytes (i : Word) (bytes : List Byte) (s : State := State.reset) : State :=
  { s with i := i, mem := writeBytes s.mem i.toNat bytes }

/-- The keys listed held down. -/
def withKeys (keys : List KeyIdx) (s : State := State.reset) : State := keys.foldl (fun t k => setKey t k true) s

/-- The pixels listed set. -/
def withPixels (pixels : List Place) (s : State := State.reset) : State :=
  { s with fb := pixels.foldl (fun fb q => togglePixel fb q.1 q.2) s.fb }

/-- `SP` with the entries below it, lowest first. -/
def withStack (sp : Fin 17) (entries : List (Fin 16 × Word)) (s : State := State.reset) : State :=
  { s with sp := sp, stack := entries.foldl (fun v e => v.set e.1.val e.2) s.stack }

/-- One step on the word, stored where the step fetches. -/
def runWord (w : Nat) (s : State) : Outcome := step (s.withFetchWord 16 w)

/-- What is looked at in the next state, if there is one. -/
def seen {α : Type} (f : State → α) (o : Outcome) : Option α :=
  match o with
  | .next t => some (f t)
  | .fault _ => none
  | .refused _ => none

/-- The error raised, if one is. -/
def raised (o : Outcome) : Option Fault :=
  match o with
  | .next _ => none
  | .fault f => some f
  | .refused _ => none

/-- Whether there is a next state. -/
def completes (o : Outcome) : Bool := (seen (fun _ => ()) o).isSome

/-- The set pixels among those listed. -/
def lit (pixels : List Place) (t : State) : List Place := pixels.filter fun q => pixel t.fb q.1 q.2

/-! ### Well-formedness: the one check, and a term it refuses (R99) -/

theorem test_unknown_refuses_jump_word : WellFormed (.unknown 0x1234) = false := by decide
theorem test_unknown_refuses_clear_word : WellFormed (.unknown 0x00E0) = false := by decide
theorem test_unknown_accepts_reserved_word : WellFormed (.unknown 0x8AB8) = true := by decide

/-! ### Decoding: one word a constructor, bit by bit from the patterns of 30_encoding.md R96 -/

/-- `00E0`. -/
theorem test_decode_clear : decode 0b0000_0000_1110_0000 = .clear := by decide
/-- `00EE`. -/
theorem test_decode_ret : decode 0b0000_0000_1110_1110 = .ret := by decide
/-- `1NNN`. -/
theorem test_decode_jump : decode 0b0001_1010_1011_1100 = .jump 0xABC := by decide
/-- `2NNN`. -/
theorem test_decode_call : decode 0b0010_0011_0000_0001 = .call 0x301 := by decide
/-- `3XNN`. -/
theorem test_decode_skipEqImm : decode 0b0011_1010_0101_1001 = .skipEqImm 0xA 0x59 := by decide
/-- `4XNN`. -/
theorem test_decode_skipNeqImm : decode 0b0100_0001_1000_0010 = .skipNeqImm 1 0x82 := by decide
/-- `5XY0`. -/
theorem test_decode_skipEqReg : decode 0b0101_0001_0010_0000 = .skipEqReg 1 2 := by decide
/-- `9XY0`. -/
theorem test_decode_skipNeqReg : decode 0b1001_1010_1011_0000 = .skipNeqReg 0xA 0xB := by decide
/-- `6XNN`. -/
theorem test_decode_setImm : decode 0b0110_1111_1010_1011 = .setImm 0xF 0xAB := by decide
/-- `7XNN`. -/
theorem test_decode_addImm : decode 0b0111_0010_1111_1110 = .addImm 2 0xFE := by decide
/-- `8XY0`. -/
theorem test_decode_setReg : decode 0b1000_1010_1011_0000 = .setReg 0xA 0xB := by decide
/-- `8XY1`. -/
theorem test_decode_orReg : decode 0b1000_0001_0010_0001 = .orReg 1 2 := by decide
/-- `8XY2`. -/
theorem test_decode_andReg : decode 0b1000_0011_0100_0010 = .andReg 3 4 := by decide
/-- `8XY3`. -/
theorem test_decode_xorReg : decode 0b1000_0101_0110_0011 = .xorReg 5 6 := by decide
/-- `8XY4`. -/
theorem test_decode_addReg : decode 0b1000_1111_0001_0100 = .addReg 0xF 1 := by decide
/-- `8XY5`. -/
theorem test_decode_subFwd : decode 0b1000_0111_1000_0101 = .subFwd 7 8 := by decide
/-- `8XY6`. -/
theorem test_decode_shiftRight : decode 0b1000_1010_1011_0110 = .shiftRight 0xA 0xB := by decide
/-- `8XY7`. -/
theorem test_decode_subRev : decode 0b1000_1001_1010_0111 = .subRev 9 0xA := by decide
/-- `8XYE`. -/
theorem test_decode_shiftLeft : decode 0b1000_1100_1101_1110 = .shiftLeft 0xC 0xD := by decide
/-- `ANNN`. -/
theorem test_decode_setIndex : decode 0b1010_0010_1111_0000 = .setIndex 0x2F0 := by decide
/-- `BNNN`. -/
theorem test_decode_jumpOffset : decode 0b1011_0011_0000_0100 = .jumpOffset 0x304 := by decide
/-- `CXNN`. -/
theorem test_decode_rand : decode 0b1100_0110_0000_1111 = .rand 6 0x0F := by decide
/-- `DXYN`. -/
theorem test_decode_draw : decode 0b1101_0101_1010_0011 = .draw 5 0xA 3 := by decide
/-- `EX9E`. -/
theorem test_decode_skipKeyDown : decode 0b1110_0010_1001_1110 = .skipKeyDown 2 := by decide
/-- `EXA1`. -/
theorem test_decode_skipKeyUp : decode 0b1110_0010_1010_0001 = .skipKeyUp 2 := by decide
/-- `FX07`. -/
theorem test_decode_getDelay : decode 0b1111_0011_0000_0111 = .getDelay 3 := by decide
/-- `FX0A`. -/
theorem test_decode_waitKey : decode 0b1111_0100_0000_1010 = .waitKey 4 := by decide
/-- `FX15`. -/
theorem test_decode_setDelay : decode 0b1111_0011_0001_0101 = .setDelay 3 := by decide
/-- `FX18`. -/
theorem test_decode_setSound : decode 0b1111_0101_0001_1000 = .setSound 5 := by decide
/-- `FX1E`. -/
theorem test_decode_addIndex : decode 0b1111_0001_0001_1110 = .addIndex 1 := by decide
/-- `FX29`. -/
theorem test_decode_setIndexFont : decode 0b1111_0001_0010_1001 = .setIndexFont 1 := by decide
/-- `FX33`. -/
theorem test_decode_storeBcd : decode 0b1111_1011_0011_0011 = .storeBcd 0xB := by decide
/-- `FX55`. -/
theorem test_decode_dumpRegs : decode 0b1111_1111_0101_0101 = .dumpRegs 0xF := by decide
/-- `FX65`. -/
theorem test_decode_loadRegs : decode 0b1111_0010_0110_0101 = .loadRegs 2 := by decide
/-- Family 8, bottom nibble F: in no row. -/
theorem test_decode_unknown : decode 0b1000_1010_1011_1111 = .unknown 0x8ABF := by decide
/-- Non-canonical words of R97, as 95_test_vectors.md 2.1 lists them. -/
theorem test_decode_noncanonical :
    decode 0x0000 = .clear ∧ decode 0x0FF0 = .clear ∧ decode 0x00FE = .ret ∧ decode 0x9AB1 = .skipNeqReg 0xA 0xB := by
  decide
/-- UNKNOWN words of every family that has some, from 95_test_vectors.md 2.1. -/
theorem test_decode_reserved :
    decode 0x00FB = .unknown 0x00FB ∧ decode 0xE19F = .unknown 0xE19F ∧ decode 0xF075 = .unknown 0xF075 := by decide
/-- A table word, laid out high byte first, and a sequence too short to hold a word. -/
theorem test_decodeTableWord : decodeTableWord 16 0xD5A3 = some (.draw 5 0xA 3) := by decide
theorem test_decodeBytes_truncated : decodeBytes [0x12] = .error .truncated := by decide

/-! ### Parameters and reset (R7, R24, R35) -/

theorem test_parameters : drawEdgePolicy = .clip ∧ keySkipConsumes = false ∧ waitKeyPriority = .lowest := by decide
theorem test_font_length : font.length = 80 := by decide
/-- Glyph 0 starts with F0 90; glyph F ends with 80 80; the byte after the font is 0. -/
theorem test_reset_memory :
    readBytes State.reset.mem 0 2 = [0xF0, 0x90] ∧ readBytes State.reset.mem 0x4E 3 = [0x80, 0x80, 0x00] := by decide

/-! ### The step cycle (95_test_vectors.md 2.2) -/

theorem test_step_last_word :
    seen (fun t => (reg t 0xA, t.pc)) (runWord 0x6A05 { State.reset with pc := 0xFFE }) = some (0x05, 0x1000) := by decide
theorem test_step_odd_pc :
    seen (fun t => (reg t 0xA, t.pc)) (runWord 0x6A05 { State.reset with pc := 0x201 }) = some (0x05, 0x203) := by decide
theorem test_step_fetch_error :
    raised (step { State.reset with pc := 0xFFF }) = some (.memoryOutOfRange 0xFFF) ∧
    raised (step { State.reset with pc := 0x1000 }) = some (.memoryOutOfRange 0x1000) := by decide
theorem test_unknown_step : seen (fun t => t) (runWord 0x8AB8 State.reset) =
    some { State.reset.withFetchWord 16 0x8AB8 with pc := 0x202 } := by decide
theorem test_unknown_event :
    (perform (.step 0) (State.reset.withFetchWord 16 0xFFFF)).2 = .ok (some (.unknownOpcode 0xFFFF)) := by decide

/-! ### Control flow (95_test_vectors.md 2.3) -/

theorem test_jump : seen (·.pc) (runWord 0x1ABC State.reset) = some 0xABC := by decide
theorem test_jump_to_self : seen (fun t => t) (runWord 0x1200 State.reset) =
    some (State.reset.withFetchWord 16 0x1200) := by decide
theorem test_call_last_entry : seen (fun t => (t.pc, t.sp, t.stack[15])) (runWord 0x2ABC (withStack 15 [])) =
    some (0xABC, 16, 0x202) := by decide
theorem test_call_overflow : raised (runWord 0x2ABC (withStack 16 [])) = some .stackOverflow := by decide
theorem test_ret : seen (fun t => (t.pc, t.sp, t.stack[1]))
    (runWord 0x0ABE { withStack 2 [(0, 0x222), (1, 0x456)] with pc := 0x300 }) = some (0x456, 1, 0x456) := by decide
theorem test_ret_underflow : raised (runWord 0x00EE State.reset) = some .stackUnderflow := by decide
theorem test_jumpOffset_unmasked : seen (·.pc) (runWord 0xBFFF (withRegs [(0, 0xFF)])) = some 0x10FE := by decide
theorem test_jumpOffset_uses_v0 : seen (·.pc) (runWord 0xB300 (withRegs [(3, 0x09)])) = some 0x300 := by decide
theorem test_skipEqImm : seen (·.pc) (runWord 0x3F01 (withRegs [(15, 1)])) = some 0x204 := by decide
theorem test_skipEqImm_not : seen (·.pc) (runWord 0x3A01 State.reset) = some 0x202 := by decide
theorem test_skipNeqImm : seen (·.pc) (runWord 0x4A01 State.reset) = some 0x204 := by decide
theorem test_skipNeqImm_not : seen (·.pc) (runWord 0x4A00 State.reset) = some 0x202 := by decide
theorem test_skipEqReg : seen (·.pc) (runWord 0x512F (withRegs [(1, 9), (2, 9)])) = some 0x204 := by decide
theorem test_skipEqReg_not : seen (·.pc) (runWord 0x5120 (withRegs [(1, 9), (2, 8)])) = some 0x202 := by decide
theorem test_skipNeqReg : seen (·.pc) (runWord 0x9AB0 (withRegs [(10, 1), (11, 2)])) = some 0x204 := by decide
theorem test_skipNeqReg_not : seen (·.pc) (runWord 0x9AA0 (withRegs [(10, 1)])) = some 0x202 := by decide

/-! ### Arithmetic and logic (95_test_vectors.md 2.4): `V[X]` and `VF` -/

theorem test_setImm : seen (fun t => (reg t 0, t.pc)) (runWord 0x6005 State.reset) = some (0x05, 0x202) := by decide
theorem test_addImm : seen (fun t => (reg t 0, reg t 15)) (runWord 0x7001 (withRegs [(0, 0xFF), (15, 7)])) =
    some (0x00, 0x07) := by decide
theorem test_setReg : seen (fun t => (reg t 10, reg t 11)) (runWord 0x8AB0 (withRegs [(11, 0x5A)])) =
    some (0x5A, 0x5A) := by decide
theorem test_orReg : seen (fun t => (reg t 0, reg t 15)) (runWord 0x8011 (withRegs [(0, 0xA0), (1, 0x0A), (15, 9)])) =
    some (0xAA, 0x09) := by decide
theorem test_andReg : seen (fun t => (reg t 0, reg t 15)) (runWord 0x8012 (withRegs [(0, 0xAC), (1, 0xCA), (15, 9)])) =
    some (0x88, 0x09) := by decide
theorem test_xorReg : seen (fun t => (reg t 0, reg t 15)) (runWord 0x8013 (withRegs [(0, 0xAC), (1, 0xCA), (15, 9)])) =
    some (0x66, 0x09) := by decide
theorem test_addReg_carry : seen (fun t => (reg t 0, reg t 15)) (runWord 0x8014 (withRegs [(0, 0xFF), (1, 1)])) =
    some (0x00, 0x01) := by decide
theorem test_addReg_into_flag : seen (fun t => reg t 15) (runWord 0x8F14 (withRegs [(15, 0x02), (1, 0x03)])) =
    some 0x00 := by decide
theorem test_subFwd_borrow : seen (fun t => (reg t 0, reg t 15)) (runWord 0x8015 (withRegs [(0, 0x05), (1, 0x0A), (15, 1)])) =
    some (0xFB, 0x00) := by decide
theorem test_subFwd_equal : seen (fun t => (reg t 0, reg t 15)) (runWord 0x8015 (withRegs [(0, 0x0A), (1, 0x0A)])) =
    some (0x00, 0x01) := by decide
theorem test_subRev : seen (fun t => (reg t 0, reg t 15)) (runWord 0x8017 (withRegs [(0, 0x05), (1, 0x0A)])) =
    some (0x05, 0x01) := by decide
theorem test_subRev_into_flag : seen (fun t => reg t 15) (runWord 0x8F17 (withRegs [(15, 0x01)])) = some 0x00 := by decide
theorem test_shiftRight_ignores_y : seen (fun t => (reg t 10, reg t 11, reg t 15))
    (runWord 0x8AB6 (withRegs [(10, 0x04), (11, 0xFF), (15, 1)])) = some (0x02, 0xFF, 0x00) := by decide
theorem test_shiftRight_flag : seen (fun t => reg t 15) (runWord 0x8F06 (withRegs [(15, 0x03)])) = some 0x01 := by decide
theorem test_shiftLeft : seen (fun t => (reg t 0, reg t 15)) (runWord 0x800E (withRegs [(0, 0x81)])) =
    some (0x02, 0x01) := by decide
theorem test_shiftLeft_flag : seen (fun t => reg t 15) (runWord 0x8F0E (withRegs [(15, 0x40)])) = some 0x00 := by decide
/-- With the host's byte AB. -/
theorem test_rand : seen (fun t => (reg t 0, t.pc)) (stepWith 0xAB (State.reset.withFetchWord 16 0xC0F0)) =
    some (0xA0, 0x202) := by decide
/-- The core's own step draws a free byte, of which nothing is known: looked at is what does not depend on it. -/
theorem test_rand_free : seen (fun t => (reg t 1, t.pc, t.randDraws)) (runWord 0xC000 (withRegs [(1, 9)])) =
    some (0x09, 0x202, 1) := by decide

/-! ### The index register and memory (95_test_vectors.md 2.5) -/

theorem test_setIndex : seen (·.i) (runWord 0xAFFF State.reset) = some 0xFFF := by decide
theorem test_addIndex_unmasked : seen (fun t => (t.i, reg t 15))
    (runWord 0xF01E { withRegs [(0, 1), (15, 5)] with i := 0xFFF }) = some (0x1000, 0x05) := by decide
theorem test_addIndex_wraps : seen (·.i) (runWord 0xF01E { withRegs [(0, 0xFF)] with i := 0xFF80 }) = some 0x007F := by
  decide
theorem test_setIndexFont : seen (·.i) (runWord 0xF029 (withRegs [(0, 0x0F)])) = some 0x4B := by decide
theorem test_setIndexFont_whole_byte : seen (·.i) (runWord 0xF029 (withRegs [(0, 0xFF)])) = some 0x4FB := by decide
theorem test_storeBcd_top : seen (fun t => (readBytes t.mem 0xFFD 3, t.i))
    (runWord 0xF033 { withRegs [(0, 0xFF)] with i := 0xFFD }) = some ([2, 5, 5], 0xFFD) := by decide
theorem test_storeBcd_error : raised (runWord 0xF033 { withRegs [(0, 0xFF)] with i := 0xFFE }) =
    some (.memoryOutOfRange 0x1000) := by decide
theorem test_dumpRegs_top : seen (fun t => (byteAt t.mem 0xFFF, t.i))
    (runWord 0xF055 { withRegs [(0, 0x77)] with i := 0xFFF }) = some (0x77, 0x1000) := by decide
theorem test_dumpRegs_error : raised (runWord 0xFF55 { State.reset with i := 0xFF1 }) =
    some (.memoryOutOfRange 0x1000) := by decide
theorem test_loadRegs : seen (fun t => (reg t 0, reg t 1, reg t 2, t.i))
    (runWord 0xF165 (withBytes 0x400 [1, 2, 3] (withRegs [(2, 0x99)]))) = some (0x01, 0x02, 0x99, 0x402) := by decide
theorem test_loadRegs_error : raised (runWord 0xF065 { State.reset with i := 0x1000 }) =
    some (.memoryOutOfRange 0x1000) := by decide

/-! ### The display (95_test_vectors.md 2.6) -/

theorem test_clear : seen (fun t => (pixel t.fb 5 3, t.dirty, reg t 15))
    (runWord 0x00E0 (withPixels [(5, 3)] (withRegs [(15, 1)]))) = some (false, true, 1) := by decide
/-- Columns 9 to 12 of row 5 around a two-pixel sprite at (10, 5), with (10, 5) set before. -/
theorem test_draw_collision : seen (fun t => (lit [(9, 5), (10, 5), (11, 5), (12, 5)] t, reg t 15, t.dirty))
    (runWord 0xD011 (withPixels [(10, 5)] (withBytes 0x300 [0xC0] (withRegs [(0, 0x0A), (1, 0x05)])))) =
    some ([(11, 5)], 1, true) := by decide
/-- `V[X]` is read before `VF` is written. -/
theorem test_draw_reads_flag_first : seen (fun t => (lit [(0, 2), (5, 2)] t, reg t 15))
    (runWord 0xDF01 (withBytes 0x300 [0x80] (withRegs [(15, 5), (0, 2)]))) = some ([(5, 2)], 0) := by decide
theorem test_draw_no_rows : seen (fun t => (pixel t.fb 0 0, reg t 15, t.dirty))
    (runWord 0xD010 (withPixels [(0, 0)] { withRegs [(15, 1)] with i := 0x1234 })) = some (true, 0, true) := by decide
theorem test_draw_error : raised (runWord 0xD003 { State.reset with i := 0xFFE }) =
    some (.memoryOutOfRange 0x1000) := by decide

/-- The state of the edge vectors: an FF sprite row at column 60. -/
def edgeSprite : State := withBytes 0x300 [0xFF] (withRegs [(0, 0x7C)])

theorem test_draw_clips : seen (lit [(59, 0), (60, 0), (63, 0), (0, 0), (3, 0)]) (drawWith .clip 0 1 1 edgeSprite) =
    some [(60, 0), (63, 0)] := by decide
theorem test_draw_wraps : seen (lit [(60, 0), (63, 0), (0, 0), (3, 0), (4, 0)]) (drawWith .wrap 0 1 1 edgeSprite) =
    some [(60, 0), (63, 0), (0, 0), (3, 0)] := by decide

/-! ### The keypad and the timers (95_test_vectors.md 2.7) -/

theorem test_skipKeyDown : seen (fun t => (t.pc, keyIsDown t 10)) (runWord 0xE29E (withKeys [10] (withRegs [(2, 10)]))) =
    some (0x204, true) := by decide
theorem test_skipKeyDown_error : raised (runWord 0xE29E (withKeys [0] (withRegs [(2, 0x10)]))) =
    some (.keyIndexOutOfRange 0x10) := by decide
theorem test_skipKeyUp : seen (·.pc) (runWord 0xE2A1 (withRegs [(2, 10)])) = some 0x204 := by decide
/-- Under `KEY_SKIP_CONSUMES = true` a key found down is cleared without a skip. -/
theorem test_skipKeyUp_consumes : seen (fun t => (t.pc, keyIsDown t 10))
    (skipOnKey true false 2 (withKeys [10] (withRegs [(2, 10)]))) = some (0x202, false) := by decide
theorem test_waitKey : seen (fun t => (reg t 4, keyIsDown t 5, keyIsDown t 9, t.pc)) (runWord 0xF40A (withKeys [5, 9])) =
    some (0x05, false, true, 0x202) := by decide
theorem test_waitKey_highest : seen (fun t => (reg t 4, keyIsDown t 5, keyIsDown t 9))
    (waitKeyWith .highest 4 (withKeys [5, 9])) = some (0x09, true, false) := by decide
theorem test_getDelay : seen (fun t => (reg t 3, t.dt)) (runWord 0xF307 { State.reset with dt := 0x2C }) =
    some (0x2C, 0x2C) := by decide
theorem test_setDelay : seen (·.dt) (runWord 0xF315 (withRegs [(3, 0xFF)])) = some 0xFF := by decide
theorem test_setSound : seen (·.st) (runWord 0xF318 (withRegs [(3, 0xFF)])) = some 0xFF := by decide
/-- Writing 0 over a running sound timer gives no event. -/
theorem test_setSound_silent :
    (perform (.step 0) ((withRegs [] { State.reset with st := 1 }).withFetchWord 16 0xF018)).2 = .ok none := by decide

/-! ### The host's operations (95_test_vectors.md 2.8) -/

theorem test_tick_sound : (perform .tickTimers { State.reset with dt := 4, st := 1 }).2 = .ok (some .soundEvent) := by
  decide
theorem test_tick_at_zero : perform .tickTimers State.reset = (State.reset, .ok none) := by decide
theorem test_load : (let t := (perform (.loadProgram [0x12, 0x34]) { withBytes 0x202 [0x99] with pc := 0x456 }).1
    (readBytes t.mem 0x200 3, t.pc)) = ([0x12, 0x34, 0x99], 0x456) := by decide
theorem test_load_too_large :
    (perform (.loadProgram (List.replicate 3585 0xAA)) State.reset).2 = .error (.programTooLarge 3585) := by
  rw [perform, loadProgram, if_neg (by rw [List.length_replicate]; decide), List.length_replicate]
theorem test_init : perform .init (withBytes 0x300 [1] (withKeys [3] (withRegs [(0, 7)]))) = (State.reset, .ok none) := by
  decide
theorem test_key_up : keyIsDown (perform (.keyUp 3) (withKeys [3])).1 3 = false := by decide
theorem test_consume_dirty : perform .consumeDirtyFlag { State.reset with dirty := true } =
    (State.reset, .flag true) := by decide
/-- Two byte requests at offsets 0 and 1 present one load (R259). -/
theorem test_load_port : requestedLoad [⟨2, 0, 0, 0, 0x12⟩, ⟨2, 0, 0, 1, 0x34⟩] = some (.loadProgram [0x12, 0x34]) := by
  decide
/-- A gap in the offsets is no load. -/
theorem test_load_port_gap : requestedLoad [⟨2, 0, 0, 0, 0x12⟩, ⟨2, 0, 0, 2, 0x34⟩] = none := by decide
/-- The error port: MemoryOutOfRange has code 4 and the address as info (R259, R280). -/
theorem test_error_port : (errorCode (.memoryOutOfRange 0xFFF), errorInfo (.memoryOutOfRange 0xFFF)) = (4, 0xFFF) := by
  decide

/-! ### Witnesses: for each statement with hypotheses, inputs that meet them all, at the ends of their ranges -/

theorem test_witness_DecodeOfEncode : WellFormed (.draw 15 15 15) = true ∧ WellFormed (.unknown 0xFFFF) = true := by decide

theorem test_witness_DecoderFollowsOpcodeMap :
    rowMatches ⟨.clear, 0xF00F, 0x0000⟩ 0x0FF0 = true ∧ rowMatches ⟨.loadRegs, 0xF0FF, 0xF065⟩ 0xFF65 = true ∧
    ∀ row ∈ opcodeRows, rowMatches row 0x0001 = false := by decide

theorem test_witness_UnknownWordsAreExactlyReserved :
    (decode 0x000F).kind = .unknown ∧ (decode 0x8008).kind = .unknown ∧ (decode 0x800F).kind = .unknown ∧
    (decode 0xE000).kind = .unknown ∧ (decode 0xFFFF).kind = .unknown := by decide

/-- A state with CALL at the last address a word can be fetched from. -/
def atTop : State := ({ State.reset with pc := 0xFFE }).withFetchWord 16 0x2ABC

theorem test_witness_StepRunsDecodedInstruction : atTop.pc.toNat ≤ 0xFFE ∧
    decodeBytes [byteAt atTop.mem atTop.pc.toNat, byteAt atTop.mem (atTop.pc.toNat + 1)] = .ok (.call 0xABC, []) := by
  decide

theorem test_witness_FetchOutOfRangeRaises : 0xFFE < ({ State.reset with pc := 0xFFF } : State).pc.toNat ∧
    HostOp.init ∉ [HostOp.step 0, .tickTimers, .keyDown 3, .loadProgram [0x12, 0x00]] := by decide

theorem test_witness_UnknownIsNoOperation :
    let s := ({ State.reset with pc := 0xFFE } : State).withFetchWord 16 0x8AB8
    isUnknownWord 0x8AB8 = true ∧ s.pc.toNat ≤ 0xFFE ∧
      byteAt s.mem s.pc.toNat ++ byteAt s.mem (s.pc.toNat + 1) = (0x8AB8 : Word) := by decide

theorem test_witness_ErrorsRaisedExactly : (perform (.step 0) (withStack 16 [] atTop)).2 = .error .stackOverflow := by decide

theorem test_witness_ErrorLeavesStateUnchanged :
    (perform (.step 0) { State.reset with pc := 0xFFF }).2 = .error (.memoryOutOfRange 0xFFF) ∧
    (perform (.step 0) (State.reset.withFetchWord 16 0x00EE)).2 = .error .stackUnderflow := by decide

theorem test_witness_StepErrorRecurs : perform (.step 0) (State.reset.withFetchWord 16 0x00EE) =
    (State.reset.withFetchWord 16 0x00EE, .error .stackUnderflow) := by decide

/-- A next state of the core's step, of a host's step of RAND, and of one of any other kind. -/
theorem test_witness_CoreStepIsHostStepWithFreeByte :
    completes (step (State.reset.withFetchWord 16 0xC0FF)) = true ∧
    completes (stepWith (Config.randByte 0) (State.reset.withFetchWord 16 0xC0FF)) = true ∧
    completes (stepWith 7 (State.reset.withFetchWord 16 0x6005)) = true := by decide

theorem test_witness_JumpResult : State.reset.pc = (0x200#12).setWidth 16 := by decide

theorem test_witness_CallResult : (withStack 0 []).sp.val < 16 ∧ (withStack 15 []).sp.val < 16 ∧ (withStack 16 []).sp.val = 16 := by
  decide

theorem test_witness_ReturnResult : 0 < (withStack 1 []).sp.val ∧ 0 < (withStack 16 []).sp.val ∧ (withStack 0 []).sp.val = 0 := by
  decide

theorem test_witness_CallThenReturn : (withStack 0 []).sp.val < 16 ∧ (withStack 15 []).sp.val < 16 := by decide

theorem test_witness_RandResult : (Instr.setImm 0 5).kind ≠ .rand := by decide

/-- STORE_BCD at the last `I` that is in range and at the first that is not. -/
theorem test_witness_StoreBcdResult :
    Memory.wf (withBytes 0xFFD [1, 2, 3]).mem = true ∧ (withBytes 0xFFD [1, 2, 3]).i.toNat + 2 ≤ 0xFFF ∧
    0xFFF < ({ State.reset with i := 0xFFE } : State).i.toNat + 2 := by decide

/-- DUMP_REGS and LOAD_REGS of sixteen registers at 0xFF0 and at 0xFF1, of one at 0xFFF and at 0x1000. -/
theorem test_witness_DumpRegsResult :
    Memory.wf (withBytes 0xFF0 [1, 2]).mem = true ∧ (withBytes 0xFF0 [1, 2]).i.toNat + (15 : RegIdx).val ≤ 0xFFF ∧
    0xFFF < ({ State.reset with i := 0xFF1 } : State).i.toNat + (15 : RegIdx).val := by decide
theorem test_witness_LoadRegsResult :
    (withBytes 0xFFF [1]).i.toNat + (0 : RegIdx).val ≤ 0xFFF ∧
    0xFFF < ({ State.reset with i := 0x1000 } : State).i.toNat + (0 : RegIdx).val := by decide

theorem test_witness_StoredWordIsFetchedNext :
    let s := withRegs [(0, 0x62), (1, 0x77)] { State.reset with i := 0x202 }
    Memory.wf s.mem = true ∧ 1 ≤ (1 : RegIdx).val ∧ s.i = s.pc + 2 ∧ s.i.toNat + (1 : RegIdx).val ≤ 0xFFF := by decide

/-- DRAW: no rows with `I` out of range, three rows ending at 0xFFF, three rows from 0xFFE, and each collision clause. -/
theorem test_witness_DrawResult :
    ((0 : Fin 16).val = 0 ∧ ({ State.reset with i := 0x1234 } : State).i.toNat > 0xFFF) ∧
    ({ State.reset with i := 0xFFD } : State).i.toNat + (3 : Fin 16).val - 1 ≤ 0xFFF ∧
    (0 < (3 : Fin 16).val ∧ 0xFFF < ({ State.reset with i := 0xFFE } : State).i.toNat + (3 : Fin 16).val - 1) := by decide

/-- The pixel (60, 0) is hit by the edge sprite's leftmost bit; set before, it collides. -/
theorem test_witness_DrawResult_collision :
    ∃ px py, Hits .clip edgeSprite.mem edgeSprite.i.toNat 1 60 0 px py ∧ pixel (withPixels [(60, 0)] edgeSprite).fb px py = true :=
  ⟨60, 0, ⟨0, by decide, 0, by decide, by decide, rfl, rfl⟩, by decide⟩

theorem test_witness_DrawResult_no_collision : ∀ px py,
    Hits .clip edgeSprite.mem edgeSprite.i.toNat 1 60 0 px py → pixel edgeSprite.fb px py = false := by
  intro px py _
  simp [pixel, edgeSprite, withBytes, withRegs, setReg, State.reset]

theorem test_witness_DrawTwiceRestores : ∃ t, drawWith .wrap 0 1 1 edgeSprite = .next t ∧
    reg t 0 = reg edgeSprite 0 ∧ reg t 1 = reg edgeSprite 1 := by
  refine ⟨_, rfl, ?_, ?_⟩ <;> decide

theorem test_witness_KeySkipsResult :
    (reg (withRegs [(2, 15)]) 2).toNat = (15 : KeyIdx).val ∧ 15 < (reg (withRegs [(2, 0x10)]) 2).toNat := by decide

theorem test_witness_WaitKeyResult :
    (∀ k, keyIsDown State.reset k = false) ∧
    (keyIsDown (withKeys [5, 9]) 5 = true ∧ ∀ j, keyIsDown (withKeys [5, 9]) j = true → (5 : KeyIdx) ≤ j) ∧
    (keyIsDown (withKeys [5, 9]) 9 = true ∧ ∀ j, keyIsDown (withKeys [5, 9]) j = true → j ≤ (9 : KeyIdx)) := by decide

theorem test_witness_LoadProgramResult : Memory.wf (withBytes 0x200 [1]).mem = true ∧
    (List.replicate 3584 (0xAA : Byte)).length ≤ 3584 ∧ 3584 < (List.replicate 3585 (0xAA : Byte)).length := by
  refine ⟨by decide, ?_, ?_⟩ <;> rw [List.length_replicate]
  decide

theorem test_witness_BootRunsFirstWord :
    ([] : List Byte).length + 2 ≤ 3584 ∧ (List.replicate 3582 (0xAA : Byte)).length + 2 ≤ 3584 := by
  refine ⟨by decide, ?_⟩
  rw [List.length_replicate]

theorem test_witness_DisplayChangeSetsDirty :
    HostOp.init ∉ [HostOp.step 0, .tickTimers, .framebuffer] ∧
    HostOp.consumeDirtyFlag ∉ [HostOp.step 0, .tickTimers, .framebuffer] := by decide

/-- Next states of instructions that change memory, the flag, the keypad and the display. -/
theorem test_witness_ItemsWrittenOnlyByTheirKinds :
    completes (exec (.dumpRegs 2) State.reset) = true ∧ completes (exec (.addReg 0 1) State.reset) = true ∧
    completes (exec (.waitKey 2) (withKeys [3])) = true ∧ completes (exec (.draw 0 0 1) State.reset) = true := by decide

theorem test_witness_FlagWrittenOnlyByFlagKinds :
    (completes (exec (.subRev 15 1) State.reset) = true ∧ (Instr.subRev 15 1).kind ∈ flagKinds) ∧
    (completes (exec (.addImm 3 1) State.reset) = true ∧ (Instr.addImm 3 1).kind ∉ flagKinds ∧
      fieldX (.addImm 3 1) ≠ some flagReg) := by decide

theorem test_witness_SoundTimerAndDirtyAreNeverRead :
    completes (exec (.setSound 3) State.reset) = true ∧ completes (exec .clear State.reset) = true ∧
    raised (exec .ret State.reset) = some .stackUnderflow := by decide

/-- A state no reset gives, at the ends of the invariant's ranges: RETURN at 0xFFE with a full stack. -/
def atBounds : State :=
  { withStack 16 [(0, 0x1000), (15, 0x1000)] (withBytes 0xFFE [0x00, 0xEE]) with pc := 0xFFE }

theorem test_witness_StepKeepsInvariant : StateInv atBounds ∧ completes (step atBounds) = true :=
  ⟨⟨by decide, by decide, by decide⟩, by decide⟩

theorem test_witness_OperationsKeepInvariant : StateInv { atBounds with pc := 0x10FE } :=
  ⟨by decide, by decide, by decide⟩

/-- A reached state whose font a STORE_BCD then overwrites: the boot of a one-instruction program with `I = 0`. -/
theorem test_witness_ReachableStatesMeetInvariant :
    Reachable (performAll [.init, .loadProgram [0xF0, 0x33]] State.reset).1 :=
  Reachable.perform (.loadProgram [0xF0, 0x33]) (Reachable.perform .init Reachable.reset)
theorem test_witness_ReachableStatesMeetInvariant_font :
    let s := (performAll [.init, .loadProgram [0xF0, 0x33]] State.reset).1
    (∀ a < 0x50, byteAt s.mem a = font.getD a 0) ∧ byteAt (perform (.step 0) s).1.mem 0 ≠ font.getD 0 0 := by decide

end Sys2Proof.Tests
end

section
/-! Proofs of the family 30_encoding.md: the decoder against the opcode map (R96) and against the table of reserved
words (R99). Families 0, 8, E and F are subdivided by the low nibble or the low byte; each of the other twelve is one
executable kind, so an UNKNOWN word can only be in one of the four. -/

namespace Sys2Proof

open Machine

variable {w : Word}

/-! ### The decoder, family by family (R94) -/

/-- The families in which every word is of one executable kind. -/
def oneKindFamilies : List Nibble := [0x1, 0x2, 0x3, 0x4, 0x5, 0x6, 0x7, 0x9, 0xA, 0xB, 0xC, 0xD]

theorem wordFamily_cases (w : Word) :
    wordFamily w = 0x0 ∨ wordFamily w = 0x8 ∨ wordFamily w = 0xE ∨ wordFamily w = 0xF ∨
      wordFamily w ∈ oneKindFamilies := by
  generalize wordFamily w = f
  revert f
  decide

theorem decode_of_family0 (hf : wordFamily w = 0x0) : decode w = decodeFamily0 w := by simp [decode, hf]

theorem decode_of_family8 (hf : wordFamily w = 0x8) : decode w = decodeFamily8 w := by simp [decode, hf]

theorem decode_of_familyE (hf : wordFamily w = 0xE) : decode w = decodeFamilyE w := by simp [decode, hf]

theorem decode_of_familyF (hf : wordFamily w = 0xF) : decode w = decodeFamilyF w := by simp [decode, hf]

theorem decode_kind_ne_unknown_of_mem_oneKindFamilies (hf : wordFamily w ∈ oneKindFamilies) :
    (decode w).kind ≠ .unknown := by
  simp only [oneKindFamilies, List.mem_cons, List.not_mem_nil, or_false] at hf
  rcases hf with hf | hf | hf | hf | hf | hf | hf | hf | hf | hf | hf | hf <;> simp [decode, hf, Instr.kind]

/-! ### The UNKNOWN words (R99) -/

theorem decodeFamily0_kind_eq_unknown_iff :
    (decodeFamily0 w).kind = .unknown ↔ wordN w ≠ 0x0 ∧ wordN w ≠ 0xE := by
  unfold decodeFamily0
  split <;> simp_all [Instr.kind]

theorem decodeFamily8_kind_eq_unknown_iff :
    (decodeFamily8 w).kind = .unknown ↔ 0x8 ≤ (wordN w).toNat ∧ wordN w ≠ 0xE := by
  unfold decodeFamily8
  split
  case h_10 =>
    simp only [imp_false, ← BitVec.toNat_inj, Instr.kind, true_iff] at *
    bv_omega
  all_goals simp_all [Instr.kind]

theorem decodeFamilyE_kind_eq_unknown_iff :
    (decodeFamilyE w).kind = .unknown ↔ wordNN w ≠ 0x9E ∧ wordNN w ≠ 0xA1 := by
  unfold decodeFamilyE
  split <;> simp_all [Instr.kind]

theorem decodeFamilyF_kind_eq_unknown_iff :
    (decodeFamilyF w).kind = .unknown ↔ wordNN w ∉ [0x07, 0x0A, 0x15, 0x18, 0x1E, 0x29, 0x33, 0x55, 0x65] := by
  unfold decodeFamilyF
  split <;> simp_all [Instr.kind]

/-- The table of R99: only the four subdivided families hold UNKNOWN words. -/
theorem decode_kind_eq_unknown_iff : (decode w).kind = .unknown ↔
    (wordFamily w = 0x0 ∧ wordN w ≠ 0x0 ∧ wordN w ≠ 0xE) ∨
    (wordFamily w = 0x8 ∧ 0x8 ≤ (wordN w).toNat ∧ wordN w ≠ 0xE) ∨
    (wordFamily w = 0xE ∧ wordNN w ≠ 0x9E ∧ wordNN w ≠ 0xA1) ∨
    (wordFamily w = 0xF ∧ wordNN w ∉ [0x07, 0x0A, 0x15, 0x18, 0x1E, 0x29, 0x33, 0x55, 0x65]) := by
  rcases wordFamily_cases w with hf | hf | hf | hf | hf
  · simp [hf, decode_of_family0 hf, decodeFamily0_kind_eq_unknown_iff]
  · simp [hf, decode_of_family8 hf, decodeFamily8_kind_eq_unknown_iff]
  · simp [hf, decode_of_familyE hf, decodeFamilyE_kind_eq_unknown_iff]
  · simp [hf, decode_of_familyF hf, decodeFamilyF_kind_eq_unknown_iff]
  · have hk := decode_kind_ne_unknown_of_mem_oneKindFamilies hf
    simp only [hk, false_iff]
    rintro (⟨h, -⟩ | ⟨h, -⟩ | ⟨h, -⟩ | ⟨h, -⟩) <;> rw [h] at hf <;> exact absurd hf (by decide)

theorem toNat_div_4096 (w : Word) : w.toNat / 4096 = (wordFamily w).toNat := by
  have := w.isLt
  rw [toNat_wordFamily]
  omega

/-- A word the decoder leaves UNKNOWN is one the well-formedness check admits. -/
theorem isUnknownWord_of_decode_kind (h : (decode w).kind = .unknown) : isUnknownWord w = true := by
  simp only [isUnknownWord, toNat_div_4096, ← toNat_wordN, ← toNat_wordNN]
  rcases decode_kind_eq_unknown_iff.1 h with ⟨hf, hn⟩ | ⟨hf, hle, hn⟩ | ⟨hf, hn⟩ | ⟨hf, hn⟩
  · simp_all [← BitVec.toNat_inj]
  · simp_all [← BitVec.toNat_inj]
    omega
  · simp_all [← BitVec.toNat_inj]
  · simp_all [← BitVec.toNat_inj]

/-- An UNKNOWN keeps the word it came from: each branch of a family's decoder names an executable kind, which `h`
excludes, or answers `.unknown w`. -/
theorem decode_eq_unknown_of_kind (h : (decode w).kind = .unknown) : decode w = .unknown w := by
  rcases wordFamily_cases w with hf | hf | hf | hf | hf
  · rw [decode_of_family0 hf, decodeFamily0] at h ⊢
    split at h <;> trivial
  · rw [decode_of_family8 hf, decodeFamily8] at h ⊢
    split at h <;> trivial
  · rw [decode_of_familyE hf, decodeFamilyE] at h ⊢
    split at h <;> trivial
  · rw [decode_of_familyF hf, decodeFamilyF] at h ⊢
    split at h <;> trivial
  · exact absurd h (decode_kind_ne_unknown_of_mem_oneKindFamilies hf)

theorem exec_unknown (w : Word) (s : State) : exec (.unknown w) s = .next (advance s) := rfl

theorem instrEvent_unknown (w : Word) : instrEvent (.unknown w) = some (.unknownOpcode w) := rfl

/-- Settles O3: the table is read off family by family, and an UNKNOWN keeps its word, so its step is that of
`exec_unknown`. -/
theorem unknownWordsAreExactlyReserved : Obligations.UnknownWordsAreExactlyReserved := by
  refine ⟨fun w => decode_kind_eq_unknown_iff, fun w s hk => ?_⟩
  rw [decode_eq_unknown_of_kind hk]
  exact ⟨exec_unknown w s, instrEvent_unknown w⟩

/-! ### The opcode map (R96) -/

/-- Two rows that one word matches agree on the bits both of them examine. -/
theorem bits_and_mask_eq_of_rowMatches {row row' : OpcodeRow} (h : rowMatches row w = true)
    (h' : rowMatches row' w = true) : row.bits &&& row'.mask = row'.bits &&& row.mask := by
  rw [rowMatches, beq_iff_eq] at h h'
  rw [← h, ← h', BitVec.and_assoc, BitVec.and_comm row.mask, BitVec.and_assoc]

/-- Any two distinct rows differ in a bit both of them examine. -/
theorem eq_of_bits_and_mask_eq : ∀ row ∈ opcodeRows, ∀ row' ∈ opcodeRows,
    row.bits &&& row'.mask = row'.bits &&& row.mask → row = row' := by
  decide

theorem eq_of_rowMatches {row row' : OpcodeRow} (hr : row ∈ opcodeRows) (hr' : row' ∈ opcodeRows)
    (h : rowMatches row w = true) (h' : rowMatches row' w = true) : row = row' :=
  eq_of_bits_and_mask_eq row hr row' hr' (bits_and_mask_eq_of_rowMatches h h')

theorem tableKind_of_rowMatches {row : OpcodeRow} (hr : row ∈ opcodeRows) (h : rowMatches row w = true) :
    tableKind w = row.kind := by
  obtain ⟨row', hfind⟩ := Option.isSome_iff_exists.1 (List.find?_isSome (p := (rowMatches · w)).2 ⟨row, hr, h⟩)
  have hrow : row' = row := eq_of_rowMatches (List.mem_of_find?_eq_some hfind) hr
      (List.find?_some (p := (rowMatches · w)) hfind) h
  rw [tableKind, hfind, hrow]

theorem tableKind_of_forall_not_rowMatches (h : ∀ row ∈ opcodeRows, rowMatches row w = false) :
    tableKind w = .unknown := by
  have hfind : opcodeRows.find? (rowMatches · w) = none :=
    List.find?_eq_none.2 fun row hr => Bool.eq_false_iff.1 (h row hr)
  rw [tableKind, hfind]

/-- The decoder and the opcode map give every word the same kind (R94, R96). Once the fields that decide the kind are
known, each row's test evaluates. -/
theorem decode_kind_eq_tableKind (w : Word) : (decode w).kind = tableKind w := by
  by_cases hk : (decode w).kind = .unknown
  · rw [hk, tableKind_of_isUnknownWord (isUnknownWord_of_decode_kind hk)]
  simp only [tableKind, opcodeRows, opcodeRowsLow, opcodeRowsAlu, opcodeRowsHigh, List.cons_append, List.nil_append,
    List.find?, rowMatches_F000, rowMatches_F00F, rowMatches_F0FF]
  rcases wordFamily_cases w with hf | hf | hf | hf | hf
  · rw [decode_of_family0 hf, decodeFamily0] at hk ⊢
    split at hk <;> simp_all [Instr.kind]
  · rw [decode_of_family8 hf, decodeFamily8] at hk ⊢
    split at hk <;> simp_all [Instr.kind]
  · rw [decode_of_familyE hf, decodeFamilyE] at hk ⊢
    split at hk <;> simp_all [Instr.kind]
  · rw [decode_of_familyF hf, decodeFamilyF] at hk ⊢
    split at hk <;> simp_all [Instr.kind]
  · simp only [oneKindFamilies, List.mem_cons, List.not_mem_nil, or_false] at hf
    rcases hf with hf | hf | hf | hf | hf | hf | hf | hf | hf | hf | hf | hf <;> simp [decode, hf, Instr.kind]

/-- Settles O2: the decoder's kind is the opcode map's, and no word matches two of the map's rows. -/
theorem decoderFollowsOpcodeMap : Obligations.DecoderFollowsOpcodeMap := by
  refine fun w => ⟨fun row hr h => ?_, fun h => ?_, fun row hr row' hr' h h' => eq_of_rowMatches hr hr' h h'⟩
  · rw [decode_kind_eq_tableKind, tableKind_of_rowMatches hr h]
  · apply decode_eq_unknown_of_kind
    rw [decode_kind_eq_tableKind, tableKind_of_forall_not_rowMatches h]

end Sys2Proof
end

section
/-! Proofs of the family 40_step_cycle.md: how a step ends (R125). An instruction answers a next state or raises an error
`Raises` gives it, the fetch adds its own error, and the event of a completed step is that of the word fetched. -/

namespace Sys2Proof

open Machine

variable {s : State} {i : Instr} {f : Fault}

/-! ### The outcomes of an instruction -/

/-- The outcome `o` of `i` on `s` is a next state, or an error R286 lets `i` raise there. -/
def NextOrRaises (i : Instr) (s : State) (o : Outcome) : Prop :=
  (∃ t, o = .next t) ∨ ∃ f, o = .fault f ∧ Raises i s f

theorem nextOrRaises_withRange {n : Nat} {t : State}
    (h : 0 < n → 0x1000 < s.i.toNat + n → Raises i s (.memoryOutOfRange (max s.i.toNat 0x1000))) :
    NextOrRaises i s (withRange (indexAddr s) n (.next t)) := by
  by_cases hr : inRange (indexAddr s) n = true
  · exact .inl ⟨t, withRange_of_inRange hr _⟩
  · obtain ⟨hn, hend⟩ := not_or.1 (mt inRange_iff.2 hr)
    exact .inr ⟨_, withRange_of_not_inRange hr _, h (Nat.pos_of_ne_zero hn) (Nat.lt_of_not_le hend)⟩

theorem nextOrRaises_skipOnKey {consumes level : Bool} {x : RegIdx}
    (h : 15 < (reg s x).toNat → Raises i s (.keyIndexOutOfRange (reg s x))) :
    NextOrRaises i s (skipOnKey consumes level x s) := by
  cases hk : keyIndex? (reg s x) with
  | none => exact .inr ⟨_, skipOnKey_of_none hk, h (keyIndex?_eq_none.1 hk)⟩
  | some k => exact .inl ⟨_, skipOnKey_of_some hk⟩

theorem nextOrRaises_execCall (nnn : Imm12) : NextOrRaises (.call nnn) s (execCall nnn s) := by
  unfold execCall
  cases hp : push? s (nextPc s) with
  | none => exact .inr ⟨_, rfl, push?_eq_none.1 hp, rfl⟩
  | some t => exact .inl ⟨_, rfl⟩

theorem nextOrRaises_execRet : NextOrRaises .ret s (execRet s) := by
  unfold execRet
  cases hp : pop? s with
  | none => exact .inr ⟨_, rfl, pop?_eq_none.1 hp, rfl⟩
  | some entry => exact .inl ⟨_, rfl⟩

/-- WAIT_KEY answers a next state whether or not a key is down: it never blocks. -/
theorem waitKeyWith_eq_next (p : Config.KeyPriority) (x : RegIdx) (s : State) :
    ∃ t, waitKeyWith p x s = .next t := by
  unfold waitKeyWith
  cases downKey? p s with
  | none => exact ⟨_, rfl⟩
  | some k => exact ⟨_, rfl⟩

/-- The kinds that can raise, and WAIT_KEY, by their own lemmas; every other kind is `.next` of its effect by
definition. -/
theorem nextOrRaises_exec (i : Instr) (s : State) : NextOrRaises i s (exec i s) := by
  cases i with
  | call nnn => exact nextOrRaises_execCall nnn
  | ret => exact nextOrRaises_execRet
  | draw x y n => exact nextOrRaises_withRange fun hn hend => ⟨hn, by omega, rfl⟩
  | storeBcd x => exact nextOrRaises_withRange fun _ hend => ⟨by omega, rfl⟩
  | dumpRegs x => exact nextOrRaises_withRange fun _ hend => ⟨by omega, rfl⟩
  | loadRegs x => exact nextOrRaises_withRange fun _ hend => ⟨by omega, rfl⟩
  | skipKeyDown x => exact nextOrRaises_skipOnKey fun hv => ⟨hv, rfl⟩
  | skipKeyUp x => exact nextOrRaises_skipOnKey fun hv => ⟨hv, rfl⟩
  | waitKey x => exact .inl (waitKeyWith_eq_next _ x s)
  | _ => exact .inl ⟨_, rfl⟩

theorem nextOrRaises_execWith (byte : Byte) (i : Instr) (s : State) : NextOrRaises i s (execWith byte i s) := by
  cases i with
  | rand x nn => exact .inl ⟨_, rfl⟩
  | _ => exact nextOrRaises_exec _ s

/-! ### The outcomes of a step -/

/-- The four errors R125 lets a step return. -/
def IsStepFault (f : Fault) : Prop :=
  (∃ addr, f = .memoryOutOfRange addr) ∨ f = .stackOverflow ∨ f = .stackUnderflow ∨ ∃ v, f = .keyIndexOutOfRange v

theorem not_isStepFault_programTooLarge (n : Nat) : ¬ IsStepFault (.programTooLarge n) := by
  simp [IsStepFault]

/-- `ProgramTooLarge` is no instruction's error (R287), and each of the other four errors is a step's. -/
theorem isStepFault_of_raises (h : Raises i s f) : IsStepFault f := by
  cases f with
  | programTooLarge n => cases i <;> simp [Raises] at h
  | stackOverflow => exact .inr (.inl rfl)
  | stackUnderflow => exact .inr (.inr (.inl rfl))
  | memoryOutOfRange addr => exact .inl ⟨addr, rfl⟩
  | keyIndexOutOfRange v => exact .inr (.inr (.inr ⟨v, rfl⟩))

/-- The outcome `o` of a step from `s` is a next state after a word was fetched, or one of the four errors. -/
def StepEnds (s : State) (o : Outcome) : Prop :=
  (∃ w t, fetch s = .ok w ∧ o = .next t) ∨ ∃ f, o = .fault f ∧ IsStepFault f

theorem stepEnds_of_fetch_ok {w : Word} {o : Outcome} (hw : fetch s = .ok w) (h : NextOrRaises i s o) :
    StepEnds s o := by
  rcases h with ⟨t, ht⟩ | ⟨f, hf, hr⟩
  · exact .inl ⟨w, t, hw, ht⟩
  · exact .inr ⟨f, hf, isStepFault_of_raises hr⟩

theorem stepEnds_step (s : State) : StepEnds s (step s) := by
  rcases Nat.lt_or_ge 0xFFE s.pc.toNat with hgt | hle
  · exact .inr ⟨_, step_of_gt hgt, .inl ⟨_, rfl⟩⟩
  · rw [step_of_le hle]
    exact stepEnds_of_fetch_ok (fetch_of_le hle) (nextOrRaises_exec _ s)

theorem stepEnds_stepWith (byte : Byte) (s : State) : StepEnds s (stepWith byte s) := by
  rcases Nat.lt_or_ge 0xFFE s.pc.toNat with hgt | hle
  · exact .inr ⟨_, stepWith_of_gt byte hgt, .inl ⟨_, rfl⟩⟩
  · rw [stepWith_of_le byte hle]
    exact stepEnds_of_fetch_ok (fetch_of_le hle) (nextOrRaises_execWith byte _ s)

theorem StepEnds.ne_refused {o : Outcome} (h : StepEnds s o) (r : Refusal) : o ≠ .refused r := by
  rintro rfl
  rcases h with ⟨w, t, -, ho⟩ | ⟨f, ho, -⟩ <;> cases ho

theorem StepEnds.ne_programTooLarge {o : Outcome} (h : StepEnds s o) (n : Nat) : o ≠ .fault (.programTooLarge n) := by
  rintro rfl
  rcases h with ⟨w, t, -, ho⟩ | ⟨f, ho, hf⟩
  · cases ho
  · cases ho
    exact not_isStepFault_programTooLarge n hf

/-! ### The event of a step -/

theorem instrEvent_of_kind_ne_unknown (h : i.kind ≠ .unknown) : instrEvent i = none := by
  cases i with
  | unknown w => exact absurd rfl h
  | _ => rfl

theorem stepEvent_of_fetch_ok {w : Word} (hw : fetch s = .ok w) : stepEvent s = instrEvent (decode w) := by
  rw [stepEvent, hw]

theorem perform_step (byte : Byte) (s : State) : perform (.step byte) s = reportStep s (stepWith byte s) := rfl

/-- Settles O11: a step ends as `StepEnds` says; its reply is the error it ends in, or `Ok` with the event of the word
fetched, which only an UNKNOWN word has. -/
theorem stepOutcomesAreClosed : Obligations.StepOutcomesAreClosed := by
  refine ⟨fun s => (stepEnds_step s).ne_refused, fun s => (stepEnds_step s).ne_programTooLarge, fun s byte => ?_⟩
  simp only [perform_step]
  rcases stepEnds_stepWith byte s with ⟨w, t, hw, ho⟩ | ⟨f, ho, hf⟩
  · simp only [ho, reportStep, stepEvent_of_fetch_ok hw]
    by_cases hk : (decode w).kind = .unknown
    · refine .inr (.inl ⟨w, ?_, hw, hk⟩)
      rw [decode_eq_unknown_of_kind hk, instrEvent_unknown]
    · exact .inl ⟨by rw [instrEvent_of_kind_ne_unknown hk], w, hw, hk⟩
  · simp only [ho, reportStep, Reply.error.injEq]
    exact .inr (.inr hf)

end Sys2Proof
end

section
/-! Proofs of the family 41_control_flow.md: JUMP, CALL, RETURN and the four compare-and-skips (R141 to R143, R145 to
R148). Each is a move of `PC`, for CALL and RETURN after a push or a pop, so its frame is put together from the frames
of these operations. -/

namespace Sys2Proof

open Machine

variable {s t u : State} {items items' : List Item}

/-! ### Frames -/

theorem Machine.SameItem.trans {item : Item} (h : SameItem item s t) (h' : SameItem item t u) : SameItem item s u := by
  cases item with
  | mem | v | key => exact fun k => (h' k).trans (h k)
  | fb => exact fun x y => (h' x y).trans (h x y)
  | _ => exact Eq.trans h' h

/-- Two operations in a row change at most what one of them changes. -/
theorem Machine.OnlyChanges.trans (h : OnlyChanges items s t) (h' : OnlyChanges items' t u) :
    OnlyChanges (items' ++ items) s u := by
  intro item hi
  obtain ⟨hi', hi⟩ := not_or.1 (mt List.mem_append.2 hi)
  exact (h item hi).trans (h' item hi')

theorem onlyChanges_jumpTo (s : State) (w : Word) : OnlyChanges [.pc] s (jumpTo s w) := by
  intro item hi
  cases item with
  | pc => simp at hi
  | _ => simp [SameItem]

theorem onlyChanges_skipIf (c : Bool) (s : State) : OnlyChanges [.pc] s (skipIf c s) := by
  cases c with
  | false => exact onlyChanges_jumpTo s _
  | true => exact onlyChanges_jumpTo s _

theorem onlyChanges_pushEntry (w : Word) (h : s.sp.val < 16) : OnlyChanges [.sp, .stack] s (pushEntry s w h) := by
  intro item hi
  cases item with
  | sp | stack => simp at hi
  | _ => simp [SameItem]

theorem onlyChanges_popEntry (s : State) : OnlyChanges [.sp] s (popEntry s) := by
  intro item hi
  cases item with
  | sp => simp at hi
  | _ => simp [SameItem]

/-- An instruction that raises `f` is reported as `f` with the state as it was (R281). -/
theorem aborts_of_eq_fault {o : Outcome} {f : Fault} (h : o = .fault f) : Aborts s o f := by
  subst h
  exact ⟨rfl, rfl⟩

/-! ### JUMP (R141) -/

theorem exec_jump (nnn : Imm12) (s : State) : exec (.jump nnn) s = .next (jumpTo s (nnn.setWidth 16)) := rfl

theorem jumpTo_self (s : State) : jumpTo s s.pc = s := rfl

theorem decode_encodeNNN_jump (nnn : Imm12) : decode (encodeNNN 0x1 nnn) = .jump nnn := by
  simp [decode]

/-- Settles O16: a JUMP is `jumpTo` its address, and moving `PC` to where it stands changes nothing. -/
theorem jumpResult : Obligations.JumpResult := by
  refine fun nnn s =>
    ⟨decode_encodeNNN_jump nnn, ⟨_, exec_jump nnn s, rfl, onlyChanges_jumpTo s _⟩, fun hpc => ?_⟩
  rw [exec_jump, ← hpc, jumpTo_self]

/-! ### CALL (R142) -/

theorem exec_call_of_lt (nnn : Imm12) (h : s.sp.val < 16) :
    exec (.call nnn) s = .next (jumpTo (pushEntry s (s.pc + 2) h) (nnn.setWidth 16)) := by
  rw [exec, execCall, push?_of_lt h]
  rfl

theorem exec_call_of_full (nnn : Imm12) (h : s.sp.val = 16) : exec (.call nnn) s = .fault .stackOverflow := by
  rw [exec, execCall, push?_eq_none.2 h]
  rfl

/-- A push is what the entry at `SP` holds afterwards, and no other entry changes. -/
theorem getElem_stack_pushEntry (w : Word) (h : s.sp.val < 16) (k : Fin 16) :
    (pushEntry s w h).stack[k.val] = if k.val = s.sp.val then w else s.stack[k.val] := by
  simp only [pushEntry_stack, Vector.getElem_set, eq_comm]

theorem decode_encodeNNN_call (nnn : Imm12) : decode (encodeNNN 0x2 nnn) = .call nnn := by
  simp [decode]

/-- Settles O17: with room a CALL is a push and then a jump; with none the push fails. -/
theorem callResult : Obligations.CallResult := by
  refine fun nnn s => ⟨decode_encodeNNN_call nnn, fun hlt => ?_, fun hfull => ?_⟩
  · exact ⟨_, exec_call_of_lt nnn hlt, rfl, rfl, getElem_stack_pushEntry (s.pc + 2) hlt,
      (onlyChanges_pushEntry (s.pc + 2) hlt).trans (onlyChanges_jumpTo _ _)⟩
  · exact aborts_of_eq_fault (exec_call_of_full nnn hfull)

/-! ### RETURN (R143) -/

theorem exec_ret_of_pos (hpos : 0 < s.sp.val) (hlt : s.sp.val - 1 < 16) :
    exec .ret s = .next (jumpTo (popEntry s) s.stack[s.sp.val - 1]) := by
  rw [exec, execRet, pop?_of_pos hpos hlt]

theorem exec_ret_of_empty (h : s.sp.val = 0) : exec .ret s = .fault .stackUnderflow := by
  rw [exec, execRet, pop?_eq_none.2 h]
  rfl

/-- A word written as its family, the byte between, and its low nibble. -/
theorem toNat_join_middle (f n : Nibble) (middle : Byte) :
    (f ++ middle ++ n : Word).toNat = f.toNat * 4096 + middle.toNat * 16 + n.toNat := by
  rw [toNat_join, toNat_join]
  omega

theorem wordFamily_join_middle (f n : Nibble) (middle : Byte) : wordFamily (f ++ middle ++ n) = f := by
  have := n.isLt
  have := middle.isLt
  have := f.isLt
  apply BitVec.eq_of_toNat_eq
  rw [toNat_wordFamily, toNat_join_middle]
  omega

theorem wordN_join_middle (f n : Nibble) (middle : Byte) : wordN (f ++ middle ++ n) = n := by
  have := n.isLt
  apply BitVec.eq_of_toNat_eq
  rw [toNat_wordN, toNat_join_middle]
  omega

/-- Family 0 is decided by the low nibble alone: every `0??E` is RETURN (R97). -/
theorem decode_join_middle_ret (middle : Byte) : decode (0x0#4 ++ middle ++ 0xE#4) = .ret := by
  rw [decode_of_family0 (wordFamily_join_middle 0x0#4 0xE#4 middle), decodeFamily0, wordN_join_middle]
  rfl

/-- Settles O18: with an entry a RETURN is a pop and then a jump to the entry uncovered; with none the pop fails. -/
theorem returnResult : Obligations.ReturnResult := by
  refine ⟨decode_join_middle_ret, fun s => ⟨fun hpos => ?_, fun hempty => ?_⟩⟩
  · have hlt : s.sp.val - 1 < 16 := by omega
    have hsp : s.sp.val - 1 + 1 = s.sp.val := Nat.sub_add_cancel hpos
    exact ⟨_, exec_ret_of_pos hpos hlt, hsp, ⟨⟨s.sp.val - 1, hlt⟩, hsp, rfl⟩,
      (onlyChanges_popEntry s).trans (onlyChanges_jumpTo _ _)⟩
  · exact aborts_of_eq_fault (exec_ret_of_empty hempty)

/-! ### The compare-and-skips (R145 to R148) -/

theorem skipIf_beq_pc (a b : Byte) (s : State) :
    (skipIf (a == b) s).pc = if a = b then s.pc + 4 else s.pc + 2 := by
  simp only [skipIf_pc, beq_iff_eq]

theorem skipIf_bne_pc (a b : Byte) (s : State) :
    (skipIf (a != b) s).pc = if a = b then s.pc + 2 else s.pc + 4 := by
  simp only [skipIf_pc, bne_iff_ne, ne_eq, ite_not]

section Encodings

variable (x y : RegIdx) (nn : Byte) (n : Nibble)

theorem decode_encodeXNN_skipEqImm : decode (encodeXNN 0x3 x nn) = .skipEqImm x nn := by
  simp [decode]

theorem decode_encodeXNN_skipNeqImm : decode (encodeXNN 0x4 x nn) = .skipNeqImm x nn := by
  simp [decode]

/-- The bottom nibble is not examined (R97). -/
theorem decode_encodeXYN_skipEqReg : decode (encodeXYN 0x5 x y n) = .skipEqReg x y := by
  simp [decode]

/-- The bottom nibble is not examined (R97). -/
theorem decode_encodeXYN_skipNeqReg : decode (encodeXYN 0x9 x y n) = .skipNeqReg x y := by
  simp [decode]

end Encodings

/-- Settles O21: each of the four is `skipIf` of its comparison. -/
theorem compareSkipsResult : Obligations.CompareSkipsResult := by
  refine fun x y nn n s => ⟨decode_encodeXNN_skipEqImm x nn, decode_encodeXNN_skipNeqImm x nn,
    decode_encodeXYN_skipEqReg x y n, decode_encodeXYN_skipNeqReg x y n, ?_, ?_, ?_, ?_⟩
  · exact ⟨_, rfl, skipIf_beq_pc (reg s x) nn s, onlyChanges_skipIf _ s⟩
  · exact ⟨_, rfl, skipIf_bne_pc (reg s x) nn s, onlyChanges_skipIf _ s⟩
  · exact ⟨_, rfl, skipIf_beq_pc (reg s x) (reg s y) s, onlyChanges_skipIf _ s⟩
  · exact ⟨_, rfl, skipIf_bne_pc (reg s x) (reg s y) s, onlyChanges_skipIf _ s⟩

end Sys2Proof
end

section
/-! Proofs of the family 42_alu.md: the immediate moves (R161, R162), the addition (R167), the subtractions (R168, R170)
and the shifts (R169, R171). Each writes registers and advances; what is written is a byte, or a byte and then a flag
(R160), so each obligation is one of two results with its values put in the spec's words. -/

namespace Sys2Proof

open Machine

/-! ### The two results: a register written, and a register written and then the flag -/

/-- A state given by `s` with other registers and another `PC` differs from `s` in these two at most. -/
theorem onlyChanges_with_v_pc (s : State) (v : Vector Byte 16) (pc : Word) :
    OnlyChanges [.v, .pc] s { s with v := v, pc := pc } := by
  intro item hi
  cases item with
  | v | pc => simp at hi
  | mem | key => exact fun _ => rfl
  | fb => exact fun _ _ => rfl
  | _ => rfl

/-- A register written, then `PC` two further. -/
theorem advance_setReg_result (s : State) (x : RegIdx) (value : Byte) :
    RegAfter s (advance (setReg s x value)) x value ∧ (advance (setReg s x value)).pc = s.pc + 2 ∧
      OnlyChanges [.v, .pc] s (advance (setReg s x value)) :=
  ⟨fun r => reg_setReg s x r value, rfl, onlyChanges_with_v_pc s _ _⟩

/-- A register and then the flag written (R160), then `PC` two further. -/
theorem advance_setFlagged_result (s : State) (x : RegIdx) (r : FlaggedResult) :
    FlaggedAfter s (advance (setFlagged s x r)) x r.value (flagByte r.flag) ∧
      (advance (setFlagged s x r)).pc = s.pc + 2 ∧ OnlyChanges [.v, .pc] s (advance (setFlagged s x r)) :=
  ⟨fun i => reg_setFlagged s x i r, rfl, onlyChanges_with_v_pc s _ _⟩

/-! ### The values and the flags -/

/-- Cutting a number to a byte is taking it modulo 256. -/
theorem ofNat_mod_256 (n : Nat) : BitVec.ofNat 8 (n % 256) = BitVec.ofNat 8 n := by
  apply BitVec.eq_of_toNat_eq
  simp

theorem flagByte_decide (p : Prop) [Decidable p] : flagByte (decide p) = if p then 1 else 0 := by
  simp [flagByte]

/-- The bit a right shift loses is the remainder by 2 (R169). -/
theorem shiftRightFlags_eq (a : Byte) : shiftRightFlags a = ⟨a >>> 1, a.getLsbD 0⟩ := by
  have hvalue : BitVec.ofNat 8 (a.toNat / 2) = a >>> 1 := by
    apply BitVec.eq_of_toNat_eq
    have := a.isLt
    rw [BitVec.toNat_ofNat, BitVec.toNat_ushiftRight, Nat.shiftRight_eq_div_pow]
    omega
  have hflag : decide (a.toNat % 2 = 1) = a.getLsbD 0 := (Nat.testBit_zero a.toNat).symm
  rw [shiftRightFlags, hvalue, hflag]

/-- The bit a left shift loses is the top one, set from 128 on (R171). -/
theorem shiftLeftFlags_eq (a : Byte) : shiftLeftFlags a = ⟨a <<< 1, a.getLsbD 7⟩ := by
  have hvalue : BitVec.ofNat 8 (a.toNat * 2) = a <<< 1 := by
    apply BitVec.eq_of_toNat_eq
    rw [BitVec.toNat_ofNat, BitVec.toNat_shiftLeft, Nat.shiftLeft_eq, pow_one]
  have hflag : decide (128 ≤ a.toNat) = a.getLsbD 7 := by
    rw [← BitVec.msb_eq_getLsbD_last, BitVec.msb_eq_decide]
  rw [shiftLeftFlags, hvalue, hflag]

/-! ### The encodings (R92, R94) -/

section Encodings

variable (x y : RegIdx) (nn : Byte)

theorem decode_encodeXNN_setImm : decode (encodeXNN 0x6 x nn) = .setImm x nn := by
  simp [decode]

theorem decode_encodeXNN_addImm : decode (encodeXNN 0x7 x nn) = .addImm x nn := by
  simp [decode]

theorem decode_encodeXYN_addReg : decode (encodeXYN 0x8 x y 0x4) = .addReg x y := by
  simp [decode, decodeFamily8]

theorem decode_encodeXYN_subFwd : decode (encodeXYN 0x8 x y 0x5) = .subFwd x y := by
  simp [decode, decodeFamily8]

theorem decode_encodeXYN_shiftRight : decode (encodeXYN 0x8 x y 0x6) = .shiftRight x y := by
  simp [decode, decodeFamily8]

theorem decode_encodeXYN_subRev : decode (encodeXYN 0x8 x y 0x7) = .subRev x y := by
  simp [decode, decodeFamily8]

theorem decode_encodeXYN_shiftLeft : decode (encodeXYN 0x8 x y 0xE) = .shiftLeft x y := by
  simp [decode, decodeFamily8]

end Encodings

/-! ### The immediate moves (R161, R162) -/

/-- Settles O22: each writes one register, ADD_IMM the sum cut to a byte. -/
theorem immediateMovesResult : Obligations.ImmediateMovesResult := by
  refine fun x nn s => ⟨decode_encodeXNN_setImm x nn, decode_encodeXNN_addImm x nn,
    ⟨_, rfl, advance_setReg_result s x nn⟩, ?_⟩
  rw [ofNat_mod_256]
  exact ⟨_, rfl, advance_setReg_result s x (addWrap (reg s x) nn)⟩

/-! ### The addition (R167) -/

/-- Settles O24: the result and the flag are those of `addFlags`, both from the exact sum. -/
theorem addRegResult : Obligations.AddRegResult := by
  refine fun x y s => ⟨decode_encodeXYN_addReg x y, ?_⟩
  rw [ofNat_mod_256, ← flagByte_decide]
  exact ⟨_, rfl, advance_setFlagged_result s x (addFlags (reg s x) (reg s y))⟩

/-! ### The subtractions (R168, R170) -/

/-- Settles O25: both are `subFlags`, SUB_REV with its operands exchanged. -/
theorem subtractsResult : Obligations.SubtractsResult := by
  refine fun x y s => ⟨decode_encodeXYN_subFwd x y, decode_encodeXYN_subRev x y, ?_, ?_⟩
  · rw [ofNat_mod_256, ← flagByte_decide]
    exact ⟨_, rfl, advance_setFlagged_result s x (subFlags (reg s x) (reg s y))⟩
  · rw [ofNat_mod_256, ← flagByte_decide]
    exact ⟨_, rfl, advance_setFlagged_result s x (subFlags (reg s y) (reg s x))⟩

/-! ### The shifts (R169, R171) -/

theorem exec_shiftRight (x y : RegIdx) (s : State) :
    exec (.shiftRight x y) s = .next (advance (setFlagged s x ⟨reg s x >>> 1, (reg s x).getLsbD 0⟩)) := by
  rw [← shiftRightFlags_eq]
  rfl

theorem exec_shiftLeft (x y : RegIdx) (s : State) :
    exec (.shiftLeft x y) s = .next (advance (setFlagged s x ⟨reg s x <<< 1, (reg s x).getLsbD 7⟩)) := by
  rw [← shiftLeftFlags_eq]
  rfl

/-- Settles O26: neither meaning mentions `Y`, and each flag is the bit of `V[X]` that the shift drops. -/
theorem shiftsResult : Obligations.ShiftsResult := by
  refine fun x y s => ⟨decode_encodeXYN_shiftRight x y, decode_encodeXYN_shiftLeft x y, ?_, ?_⟩
  · exact ⟨_, exec_shiftRight x y s, advance_setFlagged_result s x _⟩
  · exact ⟨_, exec_shiftLeft x y s, advance_setFlagged_result s x _⟩

end Sys2Proof
end

section
/-! Proofs of the family 43_index_memory.md: STORE_BCD, DUMP_REGS and LOAD_REGS (R193 to R195). Each is one range check
on `I`, before anything is written (R63), and then a run of byte accesses; its frame is put together from the frames of
the operations it is made of. -/

namespace Sys2Proof

open Machine

variable {s : State} {n : Nat}

/-! ### The range check on `I` -/

theorem withRange_indexAddr_of_le (hn : 0 < n) (h : s.i.toNat + n ≤ 0x1000) (k : Outcome) :
    withRange (indexAddr s) n k = k :=
  withRange_of_inRange ((inRange_pos hn).2 h) k

theorem aborts_withRange_indexAddr (hn : 0 < n) (h : 0x1000 < s.i.toNat + n) (k : Outcome) :
    Aborts s (withRange (indexAddr s) n k) (.memoryOutOfRange (max s.i.toNat 0x1000)) :=
  aborts_of_eq_fault (withRange_of_not_inRange (mt (inRange_pos hn).1 (Nat.not_le.2 h)) k)

/-! ### Frames -/

/-- A frame may list more items than change, in any order. -/
theorem Machine.OnlyChanges.mono {t : State} {items items' : List Item} (h : OnlyChanges items s t)
    (hsub : items ⊆ items') : OnlyChanges items' s t :=
  fun item hi => h item (mt (@hsub item) hi)

theorem onlyChanges_storeBytes (s : State) (base : Nat) (bytes : List Byte) :
    OnlyChanges [.mem] s (storeBytes s base bytes) := by
  intro item hi
  cases item with
  | mem => simp at hi
  | _ => simp [SameItem]

theorem onlyChanges_loadRegsFrom (s : State) (x : RegIdx) (base : Nat) :
    OnlyChanges [.v] s (loadRegsFrom s x base) := by
  intro item hi
  cases item with
  | v => simp at hi
  | _ => simp [SameItem]

theorem onlyChanges_bumpIndex (s : State) (x : RegIdx) : OnlyChanges [.i] s (bumpIndex s x) := by
  intro item hi
  cases item with
  | i => simp at hi
  | _ => simp [SameItem]

/-! ### A run of bytes stored, and `I` advanced -/

theorem byteAt_storeBytes_of_getElem? (hwf : Memory.wf s.mem = true) {base : Nat} {bytes : List Byte}
    (hr : base + bytes.length ≤ 0x1000) {k : Nat} {v : Byte} (hk : bytes[k]? = some v) :
    byteAt (storeBytes s base bytes).mem (base + k) = v := by
  rw [storeBytes_mem, byteAt_writeBytes hwf hr, if_pos (Nat.le_add_right base k), Nat.add_sub_cancel_left, hk]
  rfl

theorem byteAt_storeBytes_outside (hwf : Memory.wf s.mem = true) {base : Nat} {bytes : List Byte}
    (hr : base + bytes.length ≤ 0x1000) {a : Nat} (ha : a < base ∨ base + bytes.length ≤ a) :
    byteAt (storeBytes s base bytes).mem a = byteAt s.mem a :=
  byteAt_writeBytes_outside hwf hr ha

/-- With the access in range `I + X + 1` is at most 0x1000, so it does not wrap. -/
theorem toNat_advance_bumpIndex_i {t : State} {x : RegIdx} (hi : t.i = s.i) (h : s.i.toNat + x.val ≤ 0xFFF) :
    (advance (bumpIndex t x)).i.toNat = s.i.toNat + x.val + 1 := by
  rw [advance_i, bumpIndex_i, hi, BitVec.toNat_ofNat]
  omega

/-! ### The encodings (R92, R94) -/

theorem decode_encodeXNN_storeBcd (x : RegIdx) : decode (encodeXNN 0xF x 0x33) = .storeBcd x := by
  simp [decode, decodeFamilyF]

theorem decode_encodeXNN_dumpRegs (x : RegIdx) : decode (encodeXNN 0xF x 0x55) = .dumpRegs x := by
  simp [decode, decodeFamilyF]

theorem decode_encodeXNN_loadRegs (x : RegIdx) : decode (encodeXNN 0xF x 0x65) = .loadRegs x := by
  simp [decode, decodeFamilyF]

/-! ### STORE_BCD (R193) -/

theorem exec_storeBcd_of_le (x : RegIdx) (h : s.i.toNat + 2 ≤ 0xFFF) :
    exec (.storeBcd x) s = .next (advance (storeBytes s s.i.toNat (decimalDigits (reg s x)))) :=
  withRange_indexAddr_of_le (by decide) (by omega) _

/-- Each decimal digit of a byte fits a byte, the first because a byte is below 1000. -/
theorem decimalDigits_toNat (v : Byte) :
    (decimalDigits v).map BitVec.toNat = [v.toNat / 100, v.toNat / 10 % 10, v.toNat % 10] := by
  have := v.isLt
  have h100 : v.toNat / 100 % 256 = v.toNat / 100 := by omega
  have h10 : v.toNat / 10 % 10 % 256 = v.toNat / 10 % 10 := by omega
  have h1 : v.toNat % 10 % 256 = v.toNat % 10 := by omega
  simp [decimalDigits, h100, h10, h1]

/-- The byte a run of digits leaves at its `k`-th address is the `k`-th digit. -/
theorem toNat_byteAt_storeBytes_decimalDigits (hwf : Memory.wf s.mem = true) {base : Nat} (hr : base + 2 ≤ 0xFFF)
    (v : Byte) {k d : Nat} (hd : [v.toNat / 100, v.toNat / 10 % 10, v.toNat % 10][k]? = some d) :
    (byteAt (storeBytes s base (decimalDigits v)).mem (base + k)).toNat = d := by
  rw [← decimalDigits_toNat, List.getElem?_map, Option.map_eq_some_iff] at hd
  obtain ⟨digit, hk, rfl⟩ := hd
  rw [byteAt_storeBytes_of_getElem? hwf (by rw [length_decimalDigits]; omega) hk]

/-- Settles O29: in range the digits are one run of three bytes from `I`; out of range the check raises. -/
theorem storeBcdResult : Obligations.StoreBcdResult := by
  refine fun x s => ⟨decode_encodeXNN_storeBcd x, fun hwf hle => ?_, fun hgt => ?_⟩
  · refine ⟨_, exec_storeBcd_of_le x hle, ?_, ?_, ?_, fun a ha => ?_, rfl, ?_⟩
    · exact toNat_byteAt_storeBytes_decimalDigits hwf hle (reg s x) (k := 0) rfl
    · exact toNat_byteAt_storeBytes_decimalDigits hwf hle (reg s x) (k := 1) rfl
    · exact toNat_byteAt_storeBytes_decimalDigits hwf hle (reg s x) (k := 2) rfl
    · apply byteAt_storeBytes_outside hwf <;> rw [length_decimalDigits] <;> omega
    · exact ((onlyChanges_storeBytes s _ _).trans (onlyChanges_jumpTo _ _)).mono (by decide)
  · exact aborts_withRange_indexAddr (by decide) (by omega) _

/-! ### DUMP_REGS (R194) -/

theorem exec_dumpRegs_of_le {x : RegIdx} (h : s.i.toNat + x.val ≤ 0xFFF) :
    exec (.dumpRegs x) s = .next (advance (bumpIndex (storeBytes s s.i.toNat (regsUpTo s x)) x)) :=
  withRange_indexAddr_of_le (Nat.succ_pos _) (by omega) _

/-- Settles O30: in range the registers are one run of `X + 1` bytes from `I`; out of range the check raises. -/
theorem dumpRegsResult : Obligations.DumpRegsResult := by
  refine fun x s => ⟨decode_encodeXNN_dumpRegs x, fun hwf hle => ?_, fun hgt => ?_⟩
  · have hr : s.i.toNat + (regsUpTo s x).length ≤ 0x1000 := by rw [length_regsUpTo]; omega
    refine ⟨_, exec_dumpRegs_of_le hle, fun r hrx => ?_, fun a ha => ?_,
      toNat_advance_bumpIndex_i (storeBytes_i s _ _) hle, rfl, ?_⟩
    · exact byteAt_storeBytes_of_getElem? hwf hr (getElem?_regsUpTo s x r hrx)
    · exact byteAt_storeBytes_outside hwf hr (by rw [length_regsUpTo]; omega)
    · exact (((onlyChanges_storeBytes s _ _).trans (onlyChanges_bumpIndex _ x)).trans
        (onlyChanges_jumpTo _ _)).mono (by decide)
  · exact aborts_withRange_indexAddr (Nat.succ_pos _) (by omega) _

/-! ### LOAD_REGS (R195) -/

theorem exec_loadRegs_of_le {x : RegIdx} (h : s.i.toNat + x.val ≤ 0xFFF) :
    exec (.loadRegs x) s = .next (advance (bumpIndex (loadRegsFrom s x s.i.toNat) x)) :=
  withRange_indexAddr_of_le (Nat.succ_pos _) (by omega) _

/-- Settles O31: in range the registers are those of `loadRegsFrom`; out of range the check raises. -/
theorem loadRegsResult : Obligations.LoadRegsResult := by
  refine fun x s => ⟨decode_encodeXNN_loadRegs x, fun hle => ?_, fun hgt => ?_⟩
  · refine ⟨_, exec_loadRegs_of_le hle, fun r => ?_,
      toNat_advance_bumpIndex_i (loadRegsFrom_i s x _) hle, ?_, ?_⟩
    · rw [reg_advance, reg_bumpIndex, reg_loadRegsFrom]
    · rw [advance_pc, bumpIndex_pc, loadRegsFrom_pc]
    · exact (((onlyChanges_loadRegsFrom s x _).trans (onlyChanges_bumpIndex _ x)).trans
        (onlyChanges_jumpTo _ _)).mono (by decide)
  · exact aborts_withRange_indexAddr (Nat.succ_pos _) (by omega) _

end Sys2Proof
end

section
/-! Proofs of the family 44_display.md: CLEAR (R210) is the clear framebuffer presented, and the next word after it. -/

namespace Sys2Proof

open Machine

/-! ### CLEAR (R210) -/

theorem onlyChanges_present (s : State) (fb : Framebuffer) : OnlyChanges [.fb, .dirty] s (present s fb) := by
  intro item hi
  cases item with
  | fb | dirty => simp at hi
  | _ => simp [SameItem]

theorem exec_clear (s : State) : exec .clear s = .next (advance (present s clearFb)) := rfl

/-- Family 0 is decided by the low nibble alone: every `0??0` is CLEAR (R97). -/
theorem decode_join_middle_clear (middle : Byte) : decode (0x0#4 ++ middle ++ 0x0#4) = .clear := by
  rw [decode_of_family0 (wordFamily_join_middle 0x0#4 0x0#4 middle), decodeFamily0, wordN_join_middle]
  rfl

/-- Settles O33: the framebuffer presented is `clearFb`, and its frame is that of `present` followed by an advance. -/
theorem clearResult : Obligations.ClearResult := by
  refine ⟨decode_join_middle_clear, fun s => ⟨_, exec_clear s, pixel_clearFb, rfl, rfl, ?_⟩⟩
  exact ((onlyChanges_present s clearFb).trans (onlyChanges_jumpTo _ _)).mono (by decide)

end Sys2Proof
end

section
/-! Proofs of the family 46_host_operations.md: a tick of the timers (R253), the two key operations (R254, R255) and the
display read-out (R256). -/

namespace Sys2Proof

open Machine

/-! ### `tick_timers` (R253) -/

@[simp] theorem toNat_tickDown (b : Byte) : (tickDown b).toNat = b.toNat - 1 := by
  unfold tickDown
  split
  · next h => rw [h]; rfl
  · next h => bv_omega

theorem onlyChanges_setDt (s : State) (b : Byte) : OnlyChanges [.dt] s (setDt s b) := by
  intro item hi
  cases item with
  | dt => simp at hi
  | _ => simp [SameItem]

theorem onlyChanges_setSt (s : State) (b : Byte) : OnlyChanges [.st] s (setSt s b) := by
  intro item hi
  cases item with
  | st => simp at hi
  | _ => simp [SameItem]

theorem onlyChanges_tickTimers (s : State) : OnlyChanges [.dt, .st] s (tickTimers s) :=
  ((onlyChanges_setDt s _).trans (onlyChanges_setSt _ _)).mono (by decide)

@[simp] theorem tickTimers_dt (s : State) : (tickTimers s).dt = tickDown s.dt := rfl
@[simp] theorem tickTimers_st (s : State) : (tickTimers s).st = tickDown s.st := rfl

theorem perform_tickTimers (s : State) : perform .tickTimers s = (tickTimers s, .ok (tickEvent s)) := rfl

/-- Settles O42: each timer is `tickDown` of what it was, and the frame is that of the two timer writes. -/
theorem tickTimersResult : Obligations.TickTimersResult := by
  refine fun s => ⟨tickTimers s, perform_tickTimers s, ?_, ?_, onlyChanges_tickTimers s⟩
  · rw [tickTimers_dt, toNat_tickDown]
  · rw [tickTimers_st, toNat_tickDown]

/-! ### `key_down` and `key_up` (R254, R255) -/

theorem onlyChanges_setKey (s : State) (k : KeyIdx) (down : Bool) : OnlyChanges [.key] s (setKey s k down) := by
  intro item hi
  cases item with
  | key => simp at hi
  | _ => simp [SameItem]

/-- The same write to a key twice is the write once. -/
@[simp] theorem setKey_setKey (s : State) (k : KeyIdx) (down : Bool) :
    setKey (setKey s k down) k down = setKey s k down := by
  simp [setKey]

theorem perform_keyDown (k : KeyIdx) (s : State) : perform (.keyDown k) s = (setKey s k true, .ok none) := rfl

theorem perform_keyUp (k : KeyIdx) (s : State) : perform (.keyUp k) s = (setKey s k false, .ok none) := rfl

/-- An operation that writes `down` to one key sets it, touches nothing else, and changes nothing when repeated. -/
theorem keyOperation_result {op : HostOp} {k : KeyIdx} {down : Bool}
    (hop : ∀ s, perform op s = (setKey s k down, .ok none)) (s : State) :
    ∃ t, perform op s = (t, .ok none) ∧ (∀ j, keyIsDown t j = if j = k then down else keyIsDown s j) ∧
      OnlyChanges [.key] s t ∧ perform op t = (t, .ok none) := by
  refine ⟨setKey s k down, hop s, fun j => keyIsDown_setKey s k j down, onlyChanges_setKey s k down, ?_⟩
  rw [hop, setKey_setKey]

/-- Settles O45: the two operations are `keyOperation_result` with the key down and with the key up. -/
theorem keyOperationsResult : Obligations.KeyOperationsResult := fun k s =>
  ⟨keyOperation_result (perform_keyDown k) s, keyOperation_result (perform_keyUp k) s⟩

/-! ### `framebuffer` (R256) -/

theorem perform_framebuffer (s : State) : perform .framebuffer s = (s, .pixels (pixelsOf s.fb)) := rfl

/-- Index `64 * y + x` of the read-out is pixel (x, y): its remainder by 64 is `x` and its quotient is `y`. -/
theorem getElem?_pixelsOf (fb : Framebuffer) (x : Fin 64) (y : Fin 32) :
    (pixelsOf fb)[64 * y.val + x.val]? = some (pixel fb x y) := by
  have hlt : 64 * y.val + x.val < 2048 := by omega
  have hmod : (64 * y.val + x.val) % 64 = x.val := by omega
  have hdiv : (64 * y.val + x.val) / 64 = y.val := by omega
  rw [Vector.getElem?_eq_getElem hlt]
  simp [pixelsOf, hmod, hdiv]

/-- Settles O46: the state is answered as it was, with its framebuffer read out. -/
theorem framebufferReadOut : Obligations.FramebufferReadOut := fun s =>
  ⟨pixelsOf s.fb, perform_framebuffer s, getElem?_pixelsOf s.fb⟩

end Sys2Proof
end

section
/-! Proofs about the decoder and the encoder as a whole (30_encoding.md R90 to R99): the round trip of every well-formed
instruction, the bits decoding drops, and how many words are UNKNOWN. Each format's own field lemmas (Laws/Decode) do
the arithmetic, so a case of a proof below is one kind of the opcode map. -/

namespace Sys2Proof

open Machine

variable {w : Word} {i : Instr}

/-! ### The encodings the sections above have not named (R92, R94) -/

section Encodings

variable (x y : RegIdx) (n : Nibble) (nn : Byte) (nnn : Imm12)

theorem decode_encodeXYN_setReg : decode (encodeXYN 0x8 x y 0x0) = .setReg x y := by
  simp [decode, decodeFamily8]

theorem decode_encodeXYN_orReg : decode (encodeXYN 0x8 x y 0x1) = .orReg x y := by
  simp [decode, decodeFamily8]

theorem decode_encodeXYN_andReg : decode (encodeXYN 0x8 x y 0x2) = .andReg x y := by
  simp [decode, decodeFamily8]

theorem decode_encodeXYN_xorReg : decode (encodeXYN 0x8 x y 0x3) = .xorReg x y := by
  simp [decode, decodeFamily8]

theorem decode_encodeNNN_setIndex : decode (encodeNNN 0xA nnn) = .setIndex nnn := by
  simp [decode]

theorem decode_encodeNNN_jumpOffset : decode (encodeNNN 0xB nnn) = .jumpOffset nnn := by
  simp [decode]

theorem decode_encodeXNN_rand : decode (encodeXNN 0xC x nn) = .rand x nn := by
  simp [decode]

theorem decode_encodeXYN_draw (n : Fin 16) : decode (encodeXYN 0xD x y (nibbleOf n)) = .draw x y n := by
  simp [decode, nibbleOf]

theorem decode_encodeXNN_skipKeyDown : decode (encodeXNN 0xE x 0x9E) = .skipKeyDown x := by
  simp [decode, decodeFamilyE]

theorem decode_encodeXNN_skipKeyUp : decode (encodeXNN 0xE x 0xA1) = .skipKeyUp x := by
  simp [decode, decodeFamilyE]

theorem decode_encodeXNN_getDelay : decode (encodeXNN 0xF x 0x07) = .getDelay x := by
  simp [decode, decodeFamilyF]

theorem decode_encodeXNN_waitKey : decode (encodeXNN 0xF x 0x0A) = .waitKey x := by
  simp [decode, decodeFamilyF]

theorem decode_encodeXNN_setDelay : decode (encodeXNN 0xF x 0x15) = .setDelay x := by
  simp [decode, decodeFamilyF]

theorem decode_encodeXNN_setSound : decode (encodeXNN 0xF x 0x18) = .setSound x := by
  simp [decode, decodeFamilyF]

theorem decode_encodeXNN_addIndex : decode (encodeXNN 0xF x 0x1E) = .addIndex x := by
  simp [decode, decodeFamilyF]

theorem decode_encodeXNN_setIndexFont : decode (encodeXNN 0xF x 0x29) = .setIndexFont x := by
  simp [decode, decodeFamilyF]

end Encodings

/-! ### The round trip (R96) -/

/-- A word of R99 decodes to UNKNOWN: it matches no row of the opcode map, which the decoder follows. -/
theorem decode_of_isUnknownWord (h : isUnknownWord w = true) : decode w = .unknown w := by
  apply decode_eq_unknown_of_kind
  rw [decode_kind_eq_tableKind, tableKind_of_isUnknownWord h]

theorem decode_encode (h : WellFormed i = true) : decode (encode i) = i := by
  cases i with
  | clear => exact decode_join_middle_clear 0x0E
  | ret => exact decode_join_middle_ret 0x0E
  | jump nnn => exact decode_encodeNNN_jump nnn
  | call nnn => exact decode_encodeNNN_call nnn
  | skipEqImm x nn => exact decode_encodeXNN_skipEqImm x nn
  | skipNeqImm x nn => exact decode_encodeXNN_skipNeqImm x nn
  | skipEqReg x y => exact decode_encodeXYN_skipEqReg x y 0x0
  | skipNeqReg x y => exact decode_encodeXYN_skipNeqReg x y 0x0
  | setImm x nn => exact decode_encodeXNN_setImm x nn
  | addImm x nn => exact decode_encodeXNN_addImm x nn
  | setReg x y => exact decode_encodeXYN_setReg x y
  | orReg x y => exact decode_encodeXYN_orReg x y
  | andReg x y => exact decode_encodeXYN_andReg x y
  | xorReg x y => exact decode_encodeXYN_xorReg x y
  | addReg x y => exact decode_encodeXYN_addReg x y
  | subFwd x y => exact decode_encodeXYN_subFwd x y
  | shiftRight x y => exact decode_encodeXYN_shiftRight x y
  | subRev x y => exact decode_encodeXYN_subRev x y
  | shiftLeft x y => exact decode_encodeXYN_shiftLeft x y
  | setIndex nnn => exact decode_encodeNNN_setIndex nnn
  | jumpOffset nnn => exact decode_encodeNNN_jumpOffset nnn
  | rand x nn => exact decode_encodeXNN_rand x nn
  | draw x y n => exact decode_encodeXYN_draw x y n
  | skipKeyDown x => exact decode_encodeXNN_skipKeyDown x
  | skipKeyUp x => exact decode_encodeXNN_skipKeyUp x
  | getDelay x => exact decode_encodeXNN_getDelay x
  | waitKey x => exact decode_encodeXNN_waitKey x
  | setDelay x => exact decode_encodeXNN_setDelay x
  | setSound x => exact decode_encodeXNN_setSound x
  | addIndex x => exact decode_encodeXNN_addIndex x
  | setIndexFont x => exact decode_encodeXNN_setIndexFont x
  | storeBcd x => exact decode_encodeXNN_storeBcd x
  | dumpRegs x => exact decode_encodeXNN_dumpRegs x
  | loadRegs x => exact decode_encodeXNN_loadRegs x
  | unknown w => exact decode_of_isUnknownWord h

/-- Two bytes decode as the word they make, and the bytes after them are untouched. -/
theorem decodeBytes_encodeBytes_append (i : Instr) (rest : List Byte) :
    decodeBytes (encodeBytes i ++ rest) = .ok (decode (encode i), rest) := by
  simp only [encodeBytes, List.cons_append, List.nil_append, decodeBytes, wordOfBytes_extract]

/-- Settles O1: the word of each kind is decoded back by its format's field lemmas, and an instruction's two bytes are
its word. -/
theorem decodeOfEncode : Obligations.DecodeOfEncode := by
  refine fun i hwf => ⟨decode_encode hwf, fun rest => ?_⟩
  rw [decodeBytes_encodeBytes_append, decode_encode hwf]

/-! ### The bits decoding drops (R97) -/

theorem wellFormed_of_kind_ne_unknown (h : i.kind ≠ .unknown) : WellFormed i = true := by
  cases i with
  | unknown w => exact absurd rfl h
  | _ => rfl

theorem wellFormed_decode (w : Word) : WellFormed (decode w) = true := by
  by_cases hk : (decode w).kind = .unknown
  · rw [decode_eq_unknown_of_kind hk]
    exact isUnknownWord_of_decode_kind hk
  · exact wellFormed_of_kind_ne_unknown hk

/-! A word is its format's encoding of its own fields. -/

theorem encodeNNN_of_family {f : Nibble} (hf : wordFamily w = f) : encodeNNN f (wordNNN w) = w := by
  rw [← hf, encodeNNN_wordFields]

theorem encodeXNN_of_family {f : Nibble} (hf : wordFamily w = f) : encodeXNN f (wordX w) (wordNN w) = w := by
  rw [← hf, encodeXNN_wordFields]

theorem encodeXNN_of_fields {f : Nibble} {nn : Byte} (hf : wordFamily w = f) (hnn : wordNN w = nn) :
    encodeXNN f (wordX w) nn = w := by
  rw [← hnn, encodeXNN_of_family hf]

theorem encodeXYN_of_fields {f n : Nibble} (hf : wordFamily w = f) (hn : wordN w = n) :
    encodeXYN f (wordX w) (wordY w) n = w := by
  rw [← hf, ← hn, encodeXYN_wordFields]

/-! The two masks that drop bits see only the other fields. -/

theorem and_F00F_congr {w' : Word} (hf : wordFamily w = wordFamily w') (hn : wordN w = wordN w') :
    w &&& 0xF00F = w' &&& 0xF00F := by
  apply BitVec.eq_of_toNat_eq
  rw [toNat_and_F00F, toNat_and_F00F, hf, hn]

theorem encodeXYN_and_FFF0 (f : Nibble) (x y : RegIdx) (n : Nibble) :
    encodeXYN f x y n &&& 0xFFF0 = encodeXYN f x y 0 := by
  rw [encodeXYN, encodeXYN, show (0xFFF0 : Word) = 0xFFF#12 ++ 0x0#4 from rfl, BitVec.and_append,
    show (0xFFF#12) = BitVec.allOnes 12 from rfl, BitVec.and_allOnes, BitVec.and_zero]
  rfl

theorem encodeXYN_and_FFF0_of_family {f : Nibble} (hf : wordFamily w = f) :
    encodeXYN f (wordX w) (wordY w) 0x0 &&& 0xFFF0 = w &&& 0xFFF0 := by
  rw [← encodeXYN_of_fields (w := w) hf rfl, wordX_encodeXYN, wordY_encodeXYN, encodeXYN_and_FFF0, encodeXYN_and_FFF0]

/-- The canonical word of what `w` decodes to agrees with `w` in the bits that kind cares for. -/
def AgreesInCaredBits (w : Word) : Prop :=
  encode (decode w) &&& caredBits (decode w).kind = w &&& caredBits (decode w).kind

theorem agreesInCaredBits_of_encode (h : decode w = i) (he : encode i &&& caredBits i.kind = w &&& caredBits i.kind) :
    AgreesInCaredBits w := by
  rwa [AgreesInCaredBits, h]

/-- A kind that keeps every operand has the word itself as its canonical word. -/
theorem agreesInCaredBits_of_encode_eq (h : decode w = i) (he : encode i = w) : AgreesInCaredBits w :=
  agreesInCaredBits_of_encode h (by rw [he])

/-- CLEAR and RETURN keep the family and the low nibble, and have no other cared bit. -/
theorem agreesInCaredBits_of_family0 (hf : wordFamily w = 0x0) : AgreesInCaredBits w := by
  have hdec := decode_of_family0 hf
  rw [decodeFamily0] at hdec
  split at hdec
  · next hn => exact agreesInCaredBits_of_encode hdec (and_F00F_congr hf.symm hn.symm)
  · next hn => exact agreesInCaredBits_of_encode hdec (and_F00F_congr hf.symm hn.symm)
  · exact agreesInCaredBits_of_encode_eq hdec rfl

theorem agreesInCaredBits_of_family8 (hf : wordFamily w = 0x8) : AgreesInCaredBits w := by
  have hdec := decode_of_family8 hf
  rw [decodeFamily8] at hdec
  split at hdec
  case h_10 => exact agreesInCaredBits_of_encode_eq hdec rfl
  all_goals next hn => exact agreesInCaredBits_of_encode_eq hdec (encodeXYN_of_fields hf hn)

theorem agreesInCaredBits_of_familyE (hf : wordFamily w = 0xE) : AgreesInCaredBits w := by
  have hdec := decode_of_familyE hf
  rw [decodeFamilyE] at hdec
  split at hdec
  case h_3 => exact agreesInCaredBits_of_encode_eq hdec rfl
  all_goals next hnn => exact agreesInCaredBits_of_encode_eq hdec (encodeXNN_of_fields hf hnn)

theorem agreesInCaredBits_of_familyF (hf : wordFamily w = 0xF) : AgreesInCaredBits w := by
  have hdec := decode_of_familyF hf
  rw [decodeFamilyF] at hdec
  split at hdec
  case h_10 => exact agreesInCaredBits_of_encode_eq hdec rfl
  all_goals next hnn => exact agreesInCaredBits_of_encode_eq hdec (encodeXNN_of_fields hf hnn)

/-- The families of one kind each: by their format, the canonical word is the word, but for the low nibble that the two
register skips do not examine. -/
theorem agreesInCaredBits_of_mem_oneKindFamilies (hf : wordFamily w ∈ oneKindFamilies) : AgreesInCaredBits w := by
  simp only [oneKindFamilies, List.mem_cons, List.not_mem_nil, or_false] at hf
  rcases hf with hf | hf | hf | hf | hf | hf | hf | hf | hf | hf | hf | hf
  · exact agreesInCaredBits_of_encode_eq (i := .jump _) (by simp [decode, hf]) (encodeNNN_of_family hf)
  · exact agreesInCaredBits_of_encode_eq (i := .call _) (by simp [decode, hf]) (encodeNNN_of_family hf)
  · exact agreesInCaredBits_of_encode_eq (i := .skipEqImm _ _) (by simp [decode, hf]) (encodeXNN_of_family hf)
  · exact agreesInCaredBits_of_encode_eq (i := .skipNeqImm _ _) (by simp [decode, hf]) (encodeXNN_of_family hf)
  · exact agreesInCaredBits_of_encode (i := .skipEqReg _ _) (by simp [decode, hf]) (encodeXYN_and_FFF0_of_family hf)
  · exact agreesInCaredBits_of_encode_eq (i := .setImm _ _) (by simp [decode, hf]) (encodeXNN_of_family hf)
  · exact agreesInCaredBits_of_encode_eq (i := .addImm _ _) (by simp [decode, hf]) (encodeXNN_of_family hf)
  · exact agreesInCaredBits_of_encode (i := .skipNeqReg _ _) (by simp [decode, hf]) (encodeXYN_and_FFF0_of_family hf)
  · exact agreesInCaredBits_of_encode_eq (i := .setIndex _) (by simp [decode, hf]) (encodeNNN_of_family hf)
  · exact agreesInCaredBits_of_encode_eq (i := .jumpOffset _) (by simp [decode, hf]) (encodeNNN_of_family hf)
  · exact agreesInCaredBits_of_encode_eq (i := .rand _ _) (by simp [decode, hf]) (encodeXNN_of_family hf)
  · exact agreesInCaredBits_of_encode_eq (i := .draw (wordX w) (wordY w) (wordN w).toFin) (by rw [decode, hf]; rfl)
      (encodeXYN_of_fields hf rfl)

theorem agreesInCaredBits (w : Word) : AgreesInCaredBits w := by
  rcases wordFamily_cases w with hf | hf | hf | hf | hf
  · exact agreesInCaredBits_of_family0 hf
  · exact agreesInCaredBits_of_family8 hf
  · exact agreesInCaredBits_of_familyE hf
  · exact agreesInCaredBits_of_familyF hf
  · exact agreesInCaredBits_of_mem_oneKindFamilies hf

/-- Settles O5: what a word decodes to is well-formed, so its canonical word decodes back, and the agreement is read off
family by family. -/
theorem decodeDropsOnlyIgnoredBits : Obligations.DecodeDropsOnlyIgnoredBits := fun w =>
  ⟨wellFormed_decode w, decode_encode (wellFormed_decode w), agreesInCaredBits w⟩

/-! ### The ignored bits (R97, D1) -/

/-- Settles O6: each decode examines the fields its family's lemma names, and no shift's meaning mentions `Y`. -/
theorem ignoredBitsAreIgnored : Obligations.IgnoredBitsAreIgnored :=
  ⟨fun middle => ⟨decode_join_middle_clear middle, decode_join_middle_ret middle⟩,
    fun x y n => ⟨decode_encodeXYN_skipEqReg x y n, decode_encodeXYN_skipNeqReg x y n⟩,
    fun x y => ⟨decode_encodeXYN_shiftRight x y, decode_encodeXYN_shiftLeft x y, fun _ => ⟨rfl, rfl⟩⟩,
    rfl, rfl, fun _ _ => ⟨rfl, rfl, rfl, rfl⟩⟩

/-! ### How many words are UNKNOWN (R98) -/

/-- Counting over `m * n` numbers, block by block. -/
theorem countP_range_mul (q : Nat → Bool) (m n : Nat) :
    (List.range (m * n)).countP q = ∑ k ∈ Finset.range n, (List.range m).countP fun r => q (m * k + r) := by
  induction n with
  | zero => rfl
  | succ n ih =>
    rw [Nat.mul_succ, List.range_add, List.countP_append, List.countP_map, ih, Finset.sum_range_succ]
    rfl

theorem decode_kind_eq_unknown_iff_isUnknownWord : (decode w).kind = .unknown ↔ isUnknownWord w = true :=
  ⟨isUnknownWord_of_decode_kind, fun h => by rw [decode_of_isUnknownWord h]; rfl⟩

/-- Whether a word is one of R99 depends on its family and its low byte, not on its `X`. -/
theorem isUnknownWord_congr {w' : Word} (hf : w.toNat / 0x1000 = w'.toNat / 0x1000)
    (hlow : w.toNat % 0x100 = w'.toNat % 0x100) : isUnknownWord w = isUnknownWord w' := by
  have hlow4 : w.toNat % 0x10 = w'.toNat % 0x10 := by omega
  simp only [isUnknownWord, hf, hlow, hlow4]

/-- The words of R99 with `X` zero, by family and low byte: 224 in family 0, 112 in 8, 254 in E and 247 in F. -/
theorem sum_countP_isUnknownWord : (∑ f ∈ Finset.range 16, ∑ h ∈ Finset.range 16,
    (List.range 16).countP fun l => isUnknownWord (BitVec.ofNat 16 (4096 * f + (16 * h + l)))) = 837 := by
  decide

/-- Each word of R99 with `X` zero stands for the sixteen that differ from it in `X`. -/
theorem countP_isUnknownWord_family (f : Nat) :
    ((List.range 4096).countP fun r => isUnknownWord (BitVec.ofNat 16 (4096 * f + r))) =
      16 * ∑ h ∈ Finset.range 16,
        (List.range 16).countP fun l => isUnknownWord (BitVec.ofNat 16 (4096 * f + (16 * h + l))) := by
  have hx : ∀ x ∈ Finset.range 16,
      ((List.range 256).countP fun b => isUnknownWord (BitVec.ofNat 16 (4096 * f + (256 * x + b)))) =
        (List.range 256).countP fun b => isUnknownWord (BitVec.ofNat 16 (4096 * f + b)) := by
    intro x hx
    rw [Finset.mem_range] at hx
    refine List.countP_congr fun b hb => ?_
    rw [List.mem_range] at hb
    rw [isUnknownWord_congr] <;> simp only [BitVec.toNat_ofNat] <;> omega
  rw [show 4096 = 256 * 16 from rfl, countP_range_mul, Finset.sum_congr rfl hx, Finset.sum_const, Finset.card_range,
    smul_eq_mul, show 256 = 16 * 16 from rfl, countP_range_mul]

theorem countP_isUnknownWord : ((List.range 65536).countP fun k => isUnknownWord (BitVec.ofNat 16 k)) = 13392 := by
  rw [show 65536 = 4096 * 16 from rfl, countP_range_mul,
    Finset.sum_congr rfl fun f _ => countP_isUnknownWord_family f, ← Finset.mul_sum,
    sum_countP_isUnknownWord]
  norm_num

theorem countP_finRange (q : Nat → Bool) (n : Nat) :
    ((List.finRange n).countP fun k => q k.val) = (List.range n).countP q := by
  rw [← List.map_coe_finRange_eq_range, List.countP_map]
  rfl

theorem countP_decode_kind_unknown :
    ((List.finRange 65536).countP fun k => (decode (BitVec.ofFin k)).kind == .unknown) = 13392 := by
  have hk : ∀ k : Fin 65536,
      ((decode (BitVec.ofFin k)).kind == .unknown) = isUnknownWord (BitVec.ofNat 16 k.val) := by
    intro k
    rw [Bool.eq_iff_iff, beq_iff_eq, decode_kind_eq_unknown_iff_isUnknownWord]
    simp
  simp only [hk]
  exact (countP_finRange (fun k => isUnknownWord (BitVec.ofNat 16 k)) _).trans countP_isUnknownWord

theorem countP_bne_of_countP_beq {α β : Type} [DecidableEq β] {f : α → β} {b : β} {l : List α} {n c : Nat}
    (hlen : l.length = n + c) (h : (l.countP fun a => f a == b) = c) : (l.countP fun a => f a != b) = n := by
  have hnot : (l.countP fun a => f a != b) = l.countP fun a => decide ¬(f a == b) = true :=
    List.countP_congr fun a _ => by simp
  have := List.length_eq_countP_add_countP (fun a => f a == b) (l := l)
  omega

/-- Settles O4: UNKNOWN words are counted by family, `X` and low byte; the others are the rest of the 65536. -/
theorem decoderOutputCounts : Obligations.DecoderOutputCounts :=
  ⟨countP_bne_of_countP_beq List.length_finRange countP_decode_kind_unknown, countP_decode_kind_unknown⟩

/-! ### Sample words (95_test_vectors.md 2.1) -/

/-- Settles O7: each word is decoded by evaluation. -/
theorem sampleWordsDecode : Obligations.SampleWordsDecode := by
  unfold Obligations.SampleWordsDecode
  decide

end Sys2Proof
end

section
/-! What an instruction that completes may change, said once for every kind (the 'written by' column of R34 read the
other way, 10_state.md), the registers it changes, the canonical form of memory it keeps, and the two errors R286 lets
it raise. The proofs of the sections after this one cite these and do not run the instructions again. -/

namespace Sys2Proof

open Machine

variable {s t u : State} {i : Instr} {items : List Item}

/-! ### Frames of the operations -/

theorem onlyChanges_refl (items : List Item) (s : State) : OnlyChanges items s s := by
  intro item _
  cases item with
  | mem | v | key => exact fun _ => rfl
  | fb => exact fun _ _ => rfl
  | _ => rfl

theorem onlyChanges_setReg (s : State) (x : RegIdx) (b : Byte) : OnlyChanges [.v] s (setReg s x b) := by
  intro item hi
  cases item with
  | v => simp at hi
  | _ => simp [SameItem]

theorem onlyChanges_setFlag (s : State) (b : Bool) : OnlyChanges [.v] s (setFlag s b) :=
  onlyChanges_setReg s flagReg (flagByte b)

theorem onlyChanges_setFlagged (s : State) (x : RegIdx) (r : FlaggedResult) : OnlyChanges [.v] s (setFlagged s x r) :=
  ((onlyChanges_setReg s x r.value).trans (onlyChanges_setFlag _ r.flag)).mono (by decide)

theorem onlyChanges_setI (s : State) (w : Word) : OnlyChanges [.i] s (setI s w) := by
  intro item hi
  cases item with
  | i => simp at hi
  | _ => simp [SameItem]

theorem onlyChanges_countDraw (s : State) : OnlyChanges [.randDraws] s (countDraw s) := by
  intro item hi
  cases item with
  | randDraws => simp at hi
  | _ => simp [SameItem]

theorem Machine.OnlyChanges.jumpTo (h : OnlyChanges items s t) (w : Word) :
    OnlyChanges (.pc :: items) s (jumpTo t w) :=
  h.trans (onlyChanges_jumpTo t w)

theorem Machine.OnlyChanges.advance (h : OnlyChanges items s t) : OnlyChanges (.pc :: items) s (advance t) :=
  h.jumpTo _

/-! ### The items a kind writes (R34) -/

/-- The items an instruction of the kind may change. -/
def writtenItems : Kind → List Item
  | .clear => [.pc, .fb, .dirty]
  | .ret => [.pc, .sp]
  | .call => [.pc, .sp, .stack]
  | .jump | .jumpOffset | .skipEqImm | .skipNeqImm | .skipEqReg | .skipNeqReg | .skipKeyDown | .skipKeyUp
  | .unknown => [.pc]
  | .setImm | .addImm | .setReg | .orReg | .andReg | .xorReg | .addReg | .subFwd | .shiftRight | .subRev
  | .shiftLeft | .getDelay => [.pc, .v]
  | .rand => [.randDraws, .pc, .v]
  | .draw => [.pc, .v, .fb, .dirty]
  | .waitKey => [.pc, .key, .v]
  | .setDelay => [.pc, .dt]
  | .setSound => [.pc, .st]
  | .setIndex | .addIndex | .setIndexFont => [.pc, .i]
  | .storeBcd => [.pc, .mem]
  | .dumpRegs => [.pc, .i, .mem]
  | .loadRegs => [.pc, .i, .v]

/-- Under the policy taken a key skip moves `PC` and writes no key (D15). -/
theorem skipOnKey_keySkipConsumes_next {level : Bool} {x : RegIdx} (h : skipOnKey keySkipConsumes level x s = .next t) :
    ∃ c, t = skipIf c s := by
  obtain ⟨k, -, rfl⟩ := skipOnKey_next h
  exact ⟨_, rfl⟩

/-- The frame of every instruction. -/
theorem exec_onlyChanges (h : exec i s = .next t) : OnlyChanges (writtenItems i.kind) s t := by
  cases i with
  | clear =>
    obtain rfl := Host.Outcome.next.inj h
    exact (onlyChanges_present s clearFb).advance
  | ret =>
    obtain ⟨_, _, rfl⟩ := execRet_next h
    exact (onlyChanges_popEntry s).jumpTo _
  | call nnn =>
    obtain ⟨hlt, rfl⟩ := execCall_next h
    exact (onlyChanges_pushEntry _ hlt).jumpTo _
  | jump nnn | jumpOffset nnn | unknown w =>
    obtain rfl := Host.Outcome.next.inj h
    exact onlyChanges_jumpTo s _
  | skipEqImm x nn | skipNeqImm x nn | skipEqReg x y | skipNeqReg x y =>
    obtain rfl := Host.Outcome.next.inj h
    exact onlyChanges_skipIf _ s
  | skipKeyDown x | skipKeyUp x =>
    obtain ⟨c, rfl⟩ := skipOnKey_keySkipConsumes_next h
    exact onlyChanges_skipIf c s
  | setImm x nn | addImm x nn | setReg x y | orReg x y | andReg x y | xorReg x y | getDelay x =>
    obtain rfl := Host.Outcome.next.inj h
    exact (onlyChanges_setReg s x _).advance
  | addReg x y | subFwd x y | shiftRight x y | subRev x y | shiftLeft x y =>
    obtain rfl := Host.Outcome.next.inj h
    exact (onlyChanges_setFlagged s x _).advance
  | rand x nn =>
    obtain rfl := Host.Outcome.next.inj h
    exact (onlyChanges_setReg s x _).advance.trans (onlyChanges_countDraw _)
  | draw x y n =>
    obtain ⟨-, fb, c, rfl⟩ := drawWith_next h
    exact ((onlyChanges_present s fb).trans (onlyChanges_setFlag _ c)).advance
  | waitKey x =>
    rcases waitKeyWith_next h with ⟨-, rfl⟩ | ⟨k, -, rfl⟩
    · exact onlyChanges_refl _ t
    · exact ((onlyChanges_setReg s x _).trans (onlyChanges_setKey _ k false)).advance
  | setDelay x =>
    obtain rfl := Host.Outcome.next.inj h
    exact (onlyChanges_setDt s _).advance
  | setSound x =>
    obtain rfl := Host.Outcome.next.inj h
    exact (onlyChanges_setSt s _).advance
  | setIndex nnn | addIndex x | setIndexFont x =>
    obtain rfl := Host.Outcome.next.inj h
    exact (onlyChanges_setI s _).advance
  | storeBcd x =>
    obtain ⟨-, rfl⟩ := execStoreBcd_next h
    exact (onlyChanges_storeBytes s _ _).advance
  | dumpRegs x =>
    obtain ⟨-, rfl⟩ := execDumpRegs_next h
    exact ((onlyChanges_storeBytes s _ _).trans (onlyChanges_bumpIndex _ x)).advance
  | loadRegs x =>
    obtain ⟨-, rfl⟩ := execLoadRegs_next h
    exact ((onlyChanges_loadRegsFrom s x _).trans (onlyChanges_bumpIndex _ x)).advance

/-- The kinds that write an item, of those other than `PC`: the 'written by' column of R34, and the model's own
counter. -/
def writers : Item → List Kind
  | .mem => [.storeBcd, .dumpRegs]
  | .v => registerKinds ++ [.draw, .loadRegs]
  | .i => [.setIndex, .addIndex, .setIndexFont, .dumpRegs, .loadRegs]
  | .pc => []
  | .stack => [.call]
  | .sp => [.call, .ret]
  | .dt => [.setDelay]
  | .st => [.setSound]
  | .key => [.waitKey]
  | .fb | .dirty => [.clear, .draw]
  | .randDraws => [.rand]

/-- The two readings of the table agree, kind by kind. -/
theorem mem_writers_of_mem_writtenItems {k : Kind} : ∀ item ∈ writtenItems k, item ≠ .pc → k ∈ writers item := by
  cases k <;> decide

/-- An item other than `PC` that changed was changed by one of its writers. -/
theorem mem_writers_of_not_sameItem (h : exec i s = .next t) {item : Item} (hpc : item ≠ .pc)
    (hne : ¬SameItem item s t) : i.kind ∈ writers item :=
  mem_writers_of_mem_writtenItems item (not_imp_comm.1 (exec_onlyChanges h item) hne) hpc

theorem sameItem_of_notMem_writers (h : exec i s = .next t) {item : Item} (hpc : item ≠ .pc)
    (hk : i.kind ∉ writers item) : SameItem item s t :=
  not_imp_comm.1 (mem_writers_of_not_sameItem h hpc) hk

/-! ### The registers an instruction writes -/

theorem eq_of_reg_setReg_ne {x r : RegIdx} {b : Byte} (h : reg (setReg s x b) r ≠ reg s r) : r = x := by
  by_contra hrx
  exact h (by rw [reg_setReg, if_neg hrx])

theorem eq_of_reg_setFlagged_ne {x r : RegIdx} {res : FlaggedResult} (h : reg (setFlagged s x res) r ≠ reg s r) :
    r = flagReg ∨ r = x := by
  by_contra hrx
  obtain ⟨hflag, hx⟩ := not_or.1 hrx
  exact h (by rw [reg_setFlagged, if_neg hflag, if_neg hx])

theorem le_of_reg_loadRegsFrom_ne {x r : RegIdx} {base : Nat} (h : reg (loadRegsFrom s x base) r ≠ reg s r) :
    r ≤ x := by
  by_contra hrx
  exact h (by rw [reg_loadRegsFrom, if_neg hrx])

/-- A register that changed is the one `X` names, or `VF` under a flag kind, or one LOAD_REGS loads (R34). -/
theorem exec_reg_changes (h : exec i s = .next t) {r : RegIdx} (hr : reg t r ≠ reg s r) :
    (fieldX i = some r ∧ i.kind ∈ registerKinds) ∨ (r = flagReg ∧ i.kind ∈ flagKinds) ∨
      ∃ x, i = .loadRegs x ∧ r ≤ x := by
  have hv : i.kind ∈ writers .v := mem_writers_of_not_sameItem h (by decide) fun hsame => hr (hsame r)
  cases i with
  | setImm x nn | addImm x nn | setReg x y | orReg x y | andReg x y | xorReg x y | getDelay x | rand x nn =>
    obtain rfl := Host.Outcome.next.inj h
    obtain rfl := eq_of_reg_setReg_ne hr
    exact .inl ⟨rfl, by simp [Instr.kind, registerKinds]⟩
  | addReg x y | subFwd x y | shiftRight x y | subRev x y | shiftLeft x y =>
    obtain rfl := Host.Outcome.next.inj h
    rcases eq_of_reg_setFlagged_ne hr with rfl | rfl
    · exact .inr (.inl ⟨rfl, by simp [Instr.kind, flagKinds]⟩)
    · exact .inl ⟨rfl, by simp [Instr.kind, registerKinds]⟩
  | draw x y n =>
    obtain ⟨-, fb, c, rfl⟩ := drawWith_next h
    rw [reg_advance, ← reg_present s fb] at hr
    exact .inr (.inl ⟨eq_of_reg_setReg_ne hr, by simp [Instr.kind, flagKinds]⟩)
  | waitKey x =>
    rcases waitKeyWith_next h with ⟨-, rfl⟩ | ⟨k, -, rfl⟩
    · exact absurd rfl hr
    · obtain rfl := eq_of_reg_setReg_ne hr
      exact .inl ⟨rfl, by simp [Instr.kind, registerKinds]⟩
  | loadRegs x =>
    obtain ⟨-, rfl⟩ := execLoadRegs_next h
    rw [reg_advance, reg_bumpIndex] at hr
    exact .inr (.inr ⟨x, rfl, le_of_reg_loadRegsFrom_ne hr⟩)
  | _ => simp [writers, registerKinds, Instr.kind] at hv

/-- A flag kind leaves 0 or 1 in `VF`: the flag is written last (R23, R160). -/
theorem exec_flag (h : exec i s = .next t) (hk : i.kind ∈ flagKinds) : reg t flagReg = 0 ∨ reg t flagReg = 1 := by
  cases i with
  | addReg x y | subFwd x y | shiftRight x y | subRev x y | shiftLeft x y =>
    obtain rfl := Host.Outcome.next.inj h
    rw [reg_advance, reg_setFlagged, if_pos rfl]
    exact flagByte_eq_zero_or_one _
  | draw x y n =>
    obtain ⟨-, fb, c, rfl⟩ := drawWith_next h
    rw [reg_advance, reg_setFlag, if_pos rfl]
    exact flagByte_eq_zero_or_one c
  | _ => simp [Instr.kind, flagKinds] at hk

/-! ### The canonical form of memory -/

/-- The two kinds that store write valid addresses; no other touches memory. -/
theorem exec_wf (hwf : Memory.wf s.mem = true) (h : exec i s = .next t) : Memory.wf t.mem = true := by
  cases i with
  | storeBcd x =>
    obtain ⟨hr, rfl⟩ := execStoreBcd_next h
    exact wf_storeBytes hwf hr
  | dumpRegs x =>
    obtain ⟨hr, rfl⟩ := execDumpRegs_next h
    exact wf_storeBytes hwf (by rwa [length_regsUpTo])
  | ret =>
    obtain ⟨_, _, rfl⟩ := execRet_next h
    exact hwf
  | call nnn =>
    obtain ⟨_, rfl⟩ := execCall_next h
    exact hwf
  | skipEqImm x nn | skipNeqImm x nn | skipEqReg x y | skipNeqReg x y =>
    obtain rfl := Host.Outcome.next.inj h
    rwa [skipIf_mem]
  | skipKeyDown x | skipKeyUp x =>
    obtain ⟨c, rfl⟩ := skipOnKey_keySkipConsumes_next h
    rwa [skipIf_mem]
  | draw x y n =>
    obtain ⟨_, fb, c, rfl⟩ := drawWith_next h
    exact hwf
  | waitKey x =>
    rcases waitKeyWith_next h with ⟨_, rfl⟩ | ⟨k, _, rfl⟩
    · exact hwf
    · exact hwf
  | loadRegs x =>
    obtain ⟨_, rfl⟩ := execLoadRegs_next h
    rwa [advance_mem, bumpIndex_mem, loadRegsFrom_mem]
  | _ =>
    obtain rfl := Host.Outcome.next.inj h
    exact hwf

/-! ### The keypad (R232, R237) -/

theorem keyIndex?_eq_some {v : Byte} {k : KeyIdx} (h : v.toNat = k.val) : keyIndex? v = some k := by
  rw [keyIndex?_of_lt (h ▸ k.isLt)]
  exact congrArg some (Fin.ext h)

theorem waitKeyWith_of_none {p : Config.KeyPriority} (h : downKey? p s = none) (x : RegIdx) :
    waitKeyWith p x s = .next s := by
  rw [waitKeyWith, h]

theorem waitKeyWith_of_some {p : Config.KeyPriority} {k : KeyIdx} (h : downKey? p s = some k) (x : RegIdx) :
    waitKeyWith p x s = .next (advance (setKey (setReg s x (BitVec.ofNat 8 k.val)) k false)) := by
  rw [waitKeyWith, h]

/-! ### The errors of an instruction (R286) -/

/-- An instruction raises exactly what R286 gives its kind. -/
theorem exec_eq_fault_iff_raises {f : Fault} : exec i s = .fault f ↔ Raises i s f := by
  constructor
  · intro h
    rcases nextOrRaises_exec i s with ⟨t, ht⟩ | ⟨f', hf', hr⟩
    · cases ht.symm.trans h
    · cases hf'.symm.trans h
      exact hr
  · intro h
    cases i with
    | call nnn =>
      obtain ⟨hfull, rfl⟩ := h
      exact exec_call_of_full nnn hfull
    | ret =>
      obtain ⟨hempty, rfl⟩ := h
      exact exec_ret_of_empty hempty
    | draw x y n =>
      obtain ⟨hn, hend, rfl⟩ := h
      exact (aborts_withRange_indexAddr hn (by omega) _).1
    | storeBcd x =>
      obtain ⟨hend, rfl⟩ := h
      exact (aborts_withRange_indexAddr (by decide) (by omega) _).1
    | dumpRegs x | loadRegs x =>
      obtain ⟨hend, rfl⟩ := h
      exact (aborts_withRange_indexAddr (Nat.succ_pos _) (by omega) _).1
    | skipKeyDown x | skipKeyUp x =>
      obtain ⟨hv, rfl⟩ := h
      exact skipOnKey_of_none (keyIndex?_eq_none.2 hv)
    | _ => exact h.elim

end Sys2Proof
end

section
/-! Proofs about the step cycle and the errors as a whole (40_step_cycle.md, 60_exceptions.md): the step against the
decoder, the core's step against the host's, which error is raised when, and that an error changes nothing and
recurs. -/

namespace Sys2Proof

open Machine

variable {s t : State} {i : Instr} {byte : Byte} {f : Fault}

/-! ### The step runs the decoded instruction (R120, R122) -/

theorem decodeBytes_pair (hi lo : Byte) : decodeBytes [hi, lo] = .ok (decode (hi ++ lo), []) := rfl

theorem wordAt_eq_append (m : Memory) (a : Nat) : wordAt m a = byteAt m a ++ byteAt m (a + 1) := rfl

/-- Settles O8: in range the step is the meaning of the word at `PC`, which is what its two bytes decode to. -/
theorem stepRunsDecodedInstruction : Obligations.StepRunsDecodedInstruction := by
  intro s i hpc hdec
  rw [decodeBytes_pair, ← wordAt_eq_append] at hdec
  obtain ⟨rfl, -⟩ := Prod.mk.inj (Except.ok.inj hdec)
  exact ⟨wellFormed_decode _, step_of_le hpc, fun byte => stepWith_of_le byte hpc⟩

/-! ### What the host's step ends in -/

theorem perform_step_of_next (h : stepWith byte s = .next t) : perform (.step byte) s = (t, .ok (stepEvent s)) := by
  rw [perform_step, h]
  rfl

theorem perform_step_of_fault (h : stepWith byte s = .fault f) : perform (.step byte) s = (s, .error f) := by
  rw [perform_step, h]
  rfl

theorem stepWith_next_or_fault (byte : Byte) (s : State) :
    (∃ t, stepWith byte s = .next t) ∨ ∃ f, stepWith byte s = .fault f := by
  rcases stepEnds_stepWith byte s with ⟨-, t, -, ht⟩ | ⟨f, hf, -⟩
  · exact .inl ⟨t, ht⟩
  · exact .inr ⟨f, hf⟩

/-- A step that replies an error ended in it, and left the state it started from (R281). -/
theorem perform_step_error (h : (perform (.step byte) s).2 = .error f) :
    stepWith byte s = .fault f ∧ (perform (.step byte) s).1 = s := by
  rcases stepWith_next_or_fault byte s with ⟨t, ht⟩ | ⟨f', hf'⟩
  · rw [perform_step_of_next ht] at h
    cases h
  · rw [perform_step_of_fault hf'] at h ⊢
    cases h
    exact ⟨hf', rfl⟩

/-- A host's step that answers a next state fetched a word and ran it. -/
theorem stepWith_next (h : stepWith byte s = .next t) :
    s.pc.toNat ≤ 0xFFE ∧ execWith byte (decode (wordAt s.mem s.pc.toNat)) s = .next t := by
  rcases Nat.lt_or_ge 0xFFE s.pc.toNat with hgt | hle
  · rw [stepWith_of_gt byte hgt] at h
    cases h
  · exact ⟨hle, by rwa [stepWith_of_le byte hle] at h⟩

/-- With the host's byte an instruction does what it does without, but for RAND, which takes it. -/
theorem execWith_next (h : execWith byte i s = .next t) :
    exec i s = .next t ∨ ∃ x nn, i = .rand x nn ∧ t = randWith byte x nn s := by
  cases i with
  | rand x nn => exact .inr ⟨x, nn, rfl, (Host.Outcome.next.inj h).symm⟩
  | _ => exact .inl h

/-! ### The core's step and the host's (R172, log entry 1) -/

/-- With the free byte of the current draw, the host's meaning of an instruction is the core's, but for the count. -/
theorem exec_eq_execWith_or_countDraw (i : Instr) (s : State) :
    (exec i s = execWith (Config.randByte s.randDraws) i s ∧ ∀ t, exec i s = .next t → t.randDraws = s.randDraws) ∨
      ∃ u, execWith (Config.randByte s.randDraws) i s = .next u ∧ exec i s = .next (countDraw u) ∧
        u.randDraws = s.randDraws := by
  by_cases hk : i.kind = .rand
  · cases i with
    | rand x nn => exact .inr ⟨_, rfl, rfl, rfl⟩
    | _ => cases hk
  · exact .inl ⟨(execWith_of_ne _ hk s).symm,
      fun t ht => sameItem_of_notMem_writers (item := .randDraws) ht (by decide) (by simpa [writers] using hk)⟩

theorem step_eq_stepWith_or_countDraw (s : State) :
    (step s = stepWith (Config.randByte s.randDraws) s ∧ ∀ t, step s = .next t → t.randDraws = s.randDraws) ∨
      ∃ u, stepWith (Config.randByte s.randDraws) s = .next u ∧ step s = .next (countDraw u) ∧
        u.randDraws = s.randDraws := by
  rcases Nat.lt_or_ge 0xFFE s.pc.toNat with hgt | hle
  · rw [step_of_gt hgt, stepWith_of_gt _ hgt]
    exact .inl ⟨rfl, fun t ht => by cases ht⟩
  · rw [step_of_le hle, stepWith_of_le _ hle]
    exact exec_eq_execWith_or_countDraw _ s

/-- Settles O12: the two steps are the same outcome, or both are a RAND and differ in the count alone. -/
theorem coreStepIsHostStepWithFreeByte : Obligations.CoreStepIsHostStepWithFreeByte := by
  intro s
  rcases step_eq_stepWith_or_countDraw s with ⟨heq, hdraws⟩ | ⟨u, hu, hstep, hdraws⟩
  · rw [← heq]
    exact ⟨fun f => Iff.rfl, fun t ht => ⟨t, ht, onlyChanges_refl _ t, hdraws t ht⟩,
      fun t ht => ⟨t, ht, onlyChanges_refl _ t⟩⟩
  · rw [hu, hstep]
    refine ⟨fun f => ⟨fun h => (by cases h), fun h => (by cases h)⟩, fun t ht => ?_, fun t ht => ?_⟩
    · cases ht
      exact ⟨u, rfl, onlyChanges_countDraw u, hdraws⟩
    · cases ht
      exact ⟨_, rfl, onlyChanges_countDraw u⟩

/-! ### `load_program` (R252) -/

theorem perform_loadProgram_of_le {bytes : List Byte} (h : bytes.length ≤ 3584) (s : State) :
    perform (.loadProgram bytes) s = (storeBytes s 0x200 bytes, .ok none) := by
  rw [perform, loadProgram, if_pos (show bytes.length ≤ programMax from h)]
  rfl

theorem perform_loadProgram_of_gt {bytes : List Byte} (h : 3584 < bytes.length) (s : State) :
    perform (.loadProgram bytes) s = (s, .error (.programTooLarge bytes.length)) := by
  rw [perform, loadProgram, if_neg (show ¬bytes.length ≤ programMax from Nat.not_le.2 h)]

/-! ### Which error, and when (R280 to R288) -/

theorem step_eq_fault_iff : step s = .fault f ↔
    (0xFFE < s.pc.toNat ∧ f = .memoryOutOfRange s.pc.toNat) ∨
    (s.pc.toNat ≤ 0xFFE ∧ Raises (decode (wordAt s.mem s.pc.toNat)) s f) := by
  rcases Nat.lt_or_ge 0xFFE s.pc.toNat with hgt | hle
  · simp [step_of_gt hgt, hgt, Nat.not_le.2 hgt, eq_comm]
  · simp [step_of_le hle, hle, Nat.not_lt.2 hle, exec_eq_fault_iff_raises]

/-- No operation but a step and the load of too large an image replies an error, and the state is then as it was. -/
theorem perform_error {op : HostOp} (h : (perform op s).2 = .error f) :
    (perform op s).1 = s ∧ ((∃ byte, op = .step byte) ∨
      ∃ bytes, op = .loadProgram bytes ∧ 3584 < bytes.length ∧ f = .programTooLarge bytes.length) := by
  cases op with
  | step byte => exact ⟨(perform_step_error h).2, .inl ⟨byte, rfl⟩⟩
  | loadProgram bytes =>
    rcases Nat.lt_or_ge 3584 bytes.length with hgt | hle
    · rw [perform_loadProgram_of_gt hgt] at h ⊢
      cases h
      exact ⟨rfl, .inr ⟨bytes, rfl, hgt, rfl⟩⟩
    · rw [perform_loadProgram_of_le hle] at h
      cases h
  | _ => cases h

/-- Settles O13: the instruction's table is `exec_eq_fault_iff_raises`; a step adds the fetch's error to it. -/
theorem errorsRaisedExactly : Obligations.ErrorsRaisedExactly :=
  ⟨fun _ _ _ => exec_eq_fault_iff_raises, fun _ _ => step_eq_fault_iff, fun _ _ _ h => (perform_error h).2⟩

/-- Settles O14: the two operations that reply errors reply them with the state they started from. -/
theorem errorLeavesStateUnchanged : Obligations.ErrorLeavesStateUnchanged := fun _ _ _ h => (perform_error h).1

/-- A step's error does not depend on the random byte: RAND, which takes it, raises none. -/
theorem stepWith_fault_of_fault (byte' : Byte) (h : stepWith byte s = .fault f) : stepWith byte' s = .fault f := by
  rcases Nat.lt_or_ge 0xFFE s.pc.toNat with hgt | hle
  · rwa [stepWith_of_gt byte' hgt, ← stepWith_of_gt byte hgt]
  · rw [stepWith_of_le byte hle] at h
    rw [stepWith_of_le byte' hle]
    generalize decode (wordAt s.mem s.pc.toNat) = i at h ⊢
    cases i with
    | rand x nn => cases h
    | _ => exact h

/-- Settles O15: the state after the error is the state before, and there the error does not depend on the byte. -/
theorem stepErrorRecurs : Obligations.StepErrorRecurs := by
  intro s s' byte byte' f h
  obtain ⟨hfault, hs⟩ := perform_step_error (congrArg Prod.snd h)
  rw [h] at hs
  subst hs
  exact perform_step_of_fault (stepWith_fault_of_fault byte' hfault)

/-! ### The fetch out of range (R121, D7) -/

/-- What each of the operations keeps holds after all of them. -/
theorem performAll_keeps {P : State → Prop} {ops : List HostOp}
    (hop : ∀ op ∈ ops, ∀ s, P s → P (perform op s).1) {s : State} (hs : P s) : P (performAll ops s).1 := by
  induction ops generalizing s with
  | nil => exact hs
  | cons op ops ih =>
    exact ih (fun op' hmem => hop op' (List.mem_cons_of_mem _ hmem)) (hop op List.mem_cons_self s hs)

/-- With `PC` beyond the last word only a reset moves it: no step completes, and no other operation writes it. -/
theorem perform_pc_of_gt {op : HostOp} (hop : op ≠ .init) (h : 0xFFE < s.pc.toNat) : (perform op s).1.pc = s.pc := by
  cases op with
  | init => exact absurd rfl hop
  | loadProgram bytes =>
    rcases Nat.lt_or_ge 3584 bytes.length with hgt | hle
    · rw [perform_loadProgram_of_gt hgt]
    · rw [perform_loadProgram_of_le hle, storeBytes_pc]
  | step byte => rw [perform_step_of_fault (stepWith_of_gt byte h)]
  | _ => rfl

/-- Settles O9: until a reset `PC` stays where it is, so every fetch fails with the same address. -/
theorem fetchOutOfRangeRaises : Obligations.FetchOutOfRangeRaises := by
  refine fun s hgt => ⟨step_of_gt hgt, fun byte => perform_step_of_fault (stepWith_of_gt byte hgt),
    fun ops byte hinit => ?_⟩
  have hpc : (performAll ops s).1.pc = s.pc := by
    refine performAll_keeps (P := fun t => t.pc = s.pc) (fun op hop t ht => ?_) rfl
    rw [perform_pc_of_gt (ne_of_mem_of_not_mem hop hinit) (by rwa [ht]), ht]
  rw [← hpc] at hgt ⊢
  exact perform_step_of_fault (stepWith_of_gt byte hgt)

/-! ### UNKNOWN (R126, D27) -/

/-- Settles O10: UNKNOWN is an advance, and a word of R99 decodes to it, so its step reports the word. -/
theorem unknownIsNoOperation : Obligations.UnknownIsNoOperation := by
  refine ⟨exec_unknown, fun w s byte hw hpc hword => ?_⟩
  rw [← wordAt_eq_append] at hword
  have hfetch : fetch s = .ok w := by rw [fetch_of_le hpc, hword]
  have hstep : stepWith byte s = .next (advance s) := by
    rw [stepWith_of_le byte hpc, hword, decode_of_isUnknownWord hw]
    exact exec_unknown w s
  rw [perform_step_of_next hstep, stepEvent_of_fetch_ok hfetch, decode_of_isUnknownWord hw, instrEvent_unknown]
  rfl

end Sys2Proof
end

section
/-! Proofs of the instructions the sections above have left: CALL and then RETURN, JUMP_OFFSET (41_control_flow.md), the
moves and the logic, RAND (42_alu.md), the index writes and a store that the next fetch sees (43_index_memory.md,
20_memory.md), the keypad and the timer moves (45_keypad_timers.md). -/

namespace Sys2Proof

open Machine

variable {s : State}

/-! ### Operands -/

theorem toNat_immAddr (nnn : Imm12) : (immAddr nnn).toNat = nnn.toNat :=
  BitVec.toNat_setWidth_of_le (by decide)

/-- The target of JUMP_OFFSET is the exact sum: 0xFFF + 0xFF fits in 16 bits (R144). -/
theorem toNat_offsetTarget (s : State) (nnn : Imm12) :
    (offsetTarget s nnn).toNat = nnn.toNat + (reg s 0).toNat := by
  have := nnn.isLt
  have := (reg s 0).isLt
  rw [offsetTarget, BitVec.toNat_add, toNat_immAddr, BitVec.toNat_setWidth_of_le (by decide)]
  omega

theorem toNat_offsetTarget_le (s : State) (nnn : Imm12) : (offsetTarget s nnn).toNat ≤ 0x10FE := by
  have := nnn.isLt
  have := (reg s 0).isLt
  rw [toNat_offsetTarget]
  omega

theorem toNat_indexPlus (s : State) (v : Byte) : (indexPlus s v).toNat = (s.i.toNat + v.toNat) % 65536 :=
  BitVec.toNat_ofNat _ _

/-- Five times a byte fits in 16 bits (R192). -/
theorem toNat_glyphAddr (v : Byte) : (glyphAddr v).toNat = v.toNat * 5 := by
  have := v.isLt
  rw [glyphAddr, BitVec.toNat_ofNat]
  omega

/-! ### CALL and then RETURN (S7) -/

/-- After a CALL the entry it pushed is on top, so RETURN goes to the address after the CALL. -/
theorem exec_ret_jumpTo_pushEntry (hlt : s.sp.val < 16) (w target : Word) :
    exec .ret (jumpTo (pushEntry s w hlt) target) =
      .next (jumpTo (popEntry (jumpTo (pushEntry s w hlt) target)) w) := by
  have hret := exec_ret_of_pos (s := jumpTo (pushEntry s w hlt) target) (Nat.succ_pos s.sp.val) hlt
  have htop := getElem_stack_pushEntry w hlt ⟨s.sp.val, hlt⟩
  rw [if_pos rfl] at htop
  exact hret.trans (congrArg (fun entry => Host.Outcome.next (jumpTo _ entry)) htop)

/-- Settles O19: the RETURN pops what the CALL pushed, and only the entry pushed is left in the stack. -/
theorem callThenReturn : Obligations.CallThenReturn := by
  intro nnn s hlt
  have hsp : (popEntry (jumpTo (pushEntry s (s.pc + 2) hlt) (nnn.setWidth 16))).sp = s.sp := rfl
  refine ⟨_, _, exec_call_of_lt nnn hlt, exec_ret_jumpTo_pushEntry hlt _ _, rfl, hsp, fun k hk => ?_, ?_⟩
  · exact (getElem_stack_pushEntry _ hlt k).trans (if_neg hk)
  · have hframe := (((onlyChanges_pushEntry (s.pc + 2) hlt).jumpTo (nnn.setWidth 16)).trans
      (onlyChanges_popEntry _)).jumpTo (s.pc + 2)
    intro item hi
    by_cases hitem : item = .sp
    · subst hitem
      exact hsp
    · exact hframe item (by simp_all)

/-! ### JUMP_OFFSET (R144) -/

/-- Settles O20: the target is the exact sum, which fits in 16 bits, and the frame is that of a jump. -/
theorem jumpOffsetResult : Obligations.JumpOffsetResult := fun nnn s =>
  ⟨decode_encodeNNN_jumpOffset nnn, _, rfl, toNat_offsetTarget s nnn, toNat_offsetTarget_le s nnn,
    onlyChanges_jumpTo s _⟩

/-! ### Moves and logic (R163 to R166) -/

/-- What a logic instruction leaves when its result is right bit by bit. -/
theorem advance_setReg_bits (s : State) (x : RegIdx) {value : Byte} {bit : Nat → Bool}
    (hbit : ∀ b < 8, value.getLsbD b = bit b) :
    (∀ r, r ≠ x → reg (advance (setReg s x value)) r = reg s r) ∧
      (∀ b < 8, (reg (advance (setReg s x value)) x).getLsbD b = bit b) ∧
      (advance (setReg s x value)).pc = s.pc + 2 ∧ OnlyChanges [.v, .pc] s (advance (setReg s x value)) := by
  obtain ⟨hreg, hpc, hframe⟩ := advance_setReg_result s x value
  refine ⟨fun r hr => ?_, fun b hb => ?_, hpc, hframe⟩
  · rw [hreg, if_neg hr]
  · rw [hreg, if_pos rfl, hbit b hb]

/-- Settles O23: each writes one register, the logic instructions the bitwise result. -/
theorem copyAndLogicResult : Obligations.CopyAndLogicResult := fun x y s =>
  ⟨decode_encodeXYN_setReg x y, decode_encodeXYN_orReg x y, decode_encodeXYN_andReg x y, decode_encodeXYN_xorReg x y,
    ⟨_, rfl, advance_setReg_result s x (reg s y)⟩,
    ⟨_, rfl, advance_setReg_bits s x fun _ _ => BitVec.getLsbD_or⟩,
    ⟨_, rfl, advance_setReg_bits s x fun _ _ => BitVec.getLsbD_and⟩,
    ⟨_, rfl, advance_setReg_bits s x fun _ _ => BitVec.getLsbD_xor⟩⟩

/-! ### RAND (R172) -/

theorem exec_rand (x : RegIdx) (nn : Byte) (s : State) :
    exec (.rand x nn) s = .next (countDraw (randWith (Config.randByte s.randDraws) x nn s)) := rfl

/-- Settles O27: RAND writes the byte masked, the core's own with the free byte and its count; the other kinds' meanings
do not see the byte. -/
theorem randResult : Obligations.RandResult := by
  refine ⟨fun x nn byte s => ⟨decode_encodeXNN_rand x nn, ⟨_, rfl, advance_setReg_result s x (byte &&& nn)⟩, ?_⟩,
    fun byte byte' i s hk => ?_⟩
  · obtain ⟨hreg, hpc, hframe⟩ := advance_setReg_result s x (Config.randByte s.randDraws &&& nn)
    exact ⟨_, exec_rand x nn s, hreg, hpc, rfl, (hframe.trans (onlyChanges_countDraw _)).mono (by decide)⟩
  · rw [execWith_of_ne byte hk, execWith_of_ne byte' hk]

/-! ### The index register (R190 to R192) -/

theorem onlyChanges_advance_setI (s : State) (w : Word) : OnlyChanges [.i, .pc] s (advance (setI s w)) :=
  (onlyChanges_setI s w).advance.mono (by decide)

/-- Settles O28: each writes `I` and advances; the values are those of the operand lemmas. -/
theorem indexWritesResult : Obligations.IndexWritesResult := fun nnn x s =>
  ⟨decode_encodeNNN_setIndex nnn, decode_encodeXNN_addIndex x, decode_encodeXNN_setIndexFont x,
    ⟨_, rfl, toNat_immAddr nnn, rfl, onlyChanges_advance_setI s _⟩,
    ⟨_, rfl, toNat_indexPlus s (reg s x), rfl, onlyChanges_advance_setI s _⟩,
    ⟨_, rfl, toNat_glyphAddr (reg s x), rfl, onlyChanges_advance_setI s _⟩⟩

/-! ### A store into the instruction stream (R72) -/

/-- Settles O32: the two bytes at the new `PC` are the first two that DUMP_REGS stored, `V0` and `V1`. -/
theorem storedWordIsFetchedNext : Obligations.StoredWordIsFetchedNext := by
  intro x s hwf hx hi hr
  refine ⟨_, exec_dumpRegs_of_le hr, ?_⟩
  have hlen : s.i.toNat + (regsUpTo s x).length ≤ 0x1000 := by rw [length_regsUpTo]; omega
  have hstored : ∀ r : RegIdx, r ≤ x →
      byteAt (storeBytes s s.i.toNat (regsUpTo s x)).mem (s.i.toNat + r.val) = reg s r :=
    fun r hrx => byteAt_storeBytes_of_getElem? hwf hlen (getElem?_regsUpTo s x r hrx)
  have h0 := hstored 0 (Fin.zero_le x)
  have h1 := hstored 1 hx
  generalize ht : advance (bumpIndex (storeBytes s s.i.toNat (regsUpTo s x)) x) = t
  have hpc : t.pc = s.i := by rw [← ht, hi]; rfl
  have hmem : t.mem = (storeBytes s s.i.toNat (regsUpTo s x)).mem := by rw [← ht]; rfl
  rw [step_of_le (by rw [hpc]; omega), wordAt_eq_append, hpc, hmem]
  rw [show byteAt (storeBytes s s.i.toNat (regsUpTo s x)).mem s.i.toNat = reg s 0 from h0,
    show byteAt (storeBytes s s.i.toNat (regsUpTo s x)).mem (s.i.toNat + 1) = reg s 1 from h1]

/-! ### The key skips (R230, R231, R233, R237) -/

/-- Clearing a key found down under `consumes`, as each key reads it afterwards. -/
theorem keyIsDown_ite_setKey (consumes : Bool) (s : State) (k j : KeyIdx) :
    keyIsDown (if consumes && keyIsDown s k then setKey s k false else s) j =
      if consumes = true ∧ j = k then false else keyIsDown s j := by
  by_cases hj : j = k
  · subst hj
    cases consumes <;> cases hdown : keyIsDown s j <;> simp [hdown]
  · split <;> simp [hj]

theorem onlyChanges_ite_setKey (c : Bool) (s : State) (k : KeyIdx) :
    OnlyChanges [.key] s (if c then setKey s k false else s) := by
  cases c with
  | true => exact onlyChanges_setKey s k false
  | false => exact onlyChanges_refl _ s

theorem ite_setKey_pc (c : Bool) (s : State) (k : KeyIdx) : (if c then setKey s k false else s).pc = s.pc := by
  cases c <;> rfl

theorem keySkipDoes_skipOnKey (consumes level : Bool) (x : RegIdx) (s : State) :
    KeySkipDoes consumes level x s (skipOnKey consumes level x s) := by
  refine ⟨fun k hk => ?_, fun hv => aborts_of_eq_fault (skipOnKey_of_none (keyIndex?_eq_none.2 hv))⟩
  refine ⟨_, skipOnKey_of_some (keyIndex?_eq_some hk), ?_, fun j => ?_, ?_⟩
  · rw [skipIf_pc, ite_setKey_pc]
    simp only [beq_iff_eq]
  · rw [keyIsDown_skipIf, keyIsDown_ite_setKey]
  · exact ((onlyChanges_ite_setKey _ s k).trans (onlyChanges_skipIf _ _)).mono (by decide)

/-- Settles O36: both instructions are `skipOnKey` under the policy taken. -/
theorem keySkipsResult : Obligations.KeySkipsResult := fun x s =>
  ⟨decode_encodeXNN_skipKeyDown x, decode_encodeXNN_skipKeyUp x,
    fun consumes level => keySkipDoes_skipOnKey consumes level x s, keySkipDoes_skipOnKey _ true x s,
    keySkipDoes_skipOnKey _ false x s⟩

/-! ### WAIT_KEY (R232) -/

/-- With some key down one is reported, and it is down. -/
theorem exists_downKey?_eq_some (p : Config.KeyPriority) {k : KeyIdx} (hk : keyIsDown s k = true) :
    ∃ j, downKey? p s = some j ∧ keyIsDown s j = true := by
  cases hp : downKey? p s with
  | none =>
    rw [downKey?_eq_none.1 hp k] at hk
    cases hk
  | some j => exact ⟨j, rfl, keyIsDown_of_downKey? hp⟩

theorem downKey?_lowest_eq_some {k : KeyIdx} (hk : keyIsDown s k = true) (hfirst : ∀ j, keyIsDown s j = true → k ≤ j) :
    downKey? .lowest s = some k := by
  obtain ⟨j, hp, hj⟩ := exists_downKey?_eq_some .lowest hk
  rw [hp, le_antisymm (downKey?_lowest hp hk) (hfirst j hj)]

theorem downKey?_highest_eq_some {k : KeyIdx} (hk : keyIsDown s k = true)
    (hlast : ∀ j, keyIsDown s j = true → j ≤ k) : downKey? .highest s = some k := by
  obtain ⟨j, hp, hj⟩ := exists_downKey?_eq_some .highest hk
  rw [hp, le_antisymm (hlast j hj) (downKey?_highest hp hk)]

theorem waitKeyDoes_waitKeyWith (p : Config.KeyPriority) (x : RegIdx) (s : State) :
    WaitKeyDoes p x s (waitKeyWith p x s) := by
  refine ⟨fun hnone => waitKeyWith_of_none (downKey?_eq_none.2 hnone) x, fun k hk hfirst => ?_⟩
  have hreported : downKey? p s = some k := by
    cases p with
    | lowest => exact downKey?_lowest_eq_some hk hfirst
    | highest => exact downKey?_highest_eq_some hk hfirst
  refine ⟨_, waitKeyWith_of_some hreported x, fun r => ?_, fun j => ?_, rfl, ?_⟩
  · rw [reg_advance, reg_setKey, reg_setReg]
  · rw [keyIsDown_advance, keyIsDown_setKey, keyIsDown_setReg]
  · exact ((onlyChanges_setReg s x _).trans (onlyChanges_setKey _ k false)).advance.mono (by decide)

/-- Settles O37: the instruction is `waitKeyWith` under the priority taken. -/
theorem waitKeyResult : Obligations.WaitKeyResult := fun x s =>
  ⟨decode_encodeXNN_waitKey x, fun p => waitKeyDoes_waitKeyWith p x s, waitKeyDoes_waitKeyWith _ x s⟩

/-! ### The timer moves (R234 to R236) -/

/-- Settles O38: one item written, then `PC` two further. -/
theorem timerMovesResult : Obligations.TimerMovesResult := fun x s =>
  ⟨decode_encodeXNN_getDelay x, decode_encodeXNN_setDelay x, decode_encodeXNN_setSound x,
    ⟨_, rfl, advance_setReg_result s x s.dt⟩,
    ⟨_, rfl, rfl, rfl, (onlyChanges_setDt s _).advance.mono (by decide)⟩,
    ⟨_, rfl, rfl, rfl, (onlyChanges_setSt s _).advance.mono (by decide)⟩⟩

end Sys2Proof
end

section
/-! Proofs about DRAW (44_display.md): one draw under either policy (R211 to R213), and two of them, which restore the
framebuffer (section 3, R214). The framebuffer composited and the collision are those of Laws/Display; here they are
named by the instruction's own operands. -/

namespace Sys2Proof

open Machine

variable {p : Config.EdgePolicy} {x y : RegIdx} {n : Fin 16} {s t : State}

/-! ### What one DRAW composites -/

/-- Whether a 1 bit of the sprite that `DRAW x y n` reads in `s` lands on a place. -/
def SpriteHits (p : Config.EdgePolicy) (x y : RegIdx) (n : Fin 16) (s : State) (px : Fin 64) (py : Fin 32) : Prop :=
  Hits p s.mem s.i.toNat n.val ((reg s x).toNat % 64) ((reg s y).toNat % 32) px py

/-- The framebuffer and the collision bit that `DRAW x y n` computes in `s`. -/
def drawn (p : Config.EdgePolicy) (x y : RegIdx) (n : Fin 16) (s : State) : Framebuffer × Bool :=
  composite s.fb (spriteLandings p (startColumn (reg s x)) (startRow (reg s y)) (readBytes s.mem (indexAddr s) n.val))

/-- The state after a DRAW in range. -/
def afterDraw (p : Config.EdgePolicy) (x y : RegIdx) (n : Fin 16) (s : State) : State :=
  advance (setFlag (present s (drawn p x y n s).1) (drawn p x y n s).2)

theorem drawWith_of_inRange (h : n.val = 0 ∨ s.i.toNat + n.val ≤ memSize) :
    drawWith p x y n s = .next (afterDraw p x y n s) :=
  withRange_of_inRange (inRange_iff.2 h) _

/-- A DRAW that answers a next state was in range, and answers `afterDraw`. -/
theorem drawWith_next_eq_afterDraw (h : drawWith p x y n s = .next t) :
    (n.val = 0 ∨ s.i.toNat + n.val ≤ memSize) ∧ t = afterDraw p x y n s := by
  obtain ⟨hr, -⟩ := drawWith_next h
  exact ⟨hr, (Host.Outcome.next.inj ((drawWith_of_inRange hr).symm.trans h)).symm⟩

theorem pixel_afterDraw (p : Config.EdgePolicy) (x y : RegIdx) (n : Fin 16) (s : State) (px : Fin 64) (py : Fin 32) :
    (SpriteHits p x y n s px py → pixel (afterDraw p x y n s).fb px py = !pixel s.fb px py) ∧
      (¬SpriteHits p x y n s px py → pixel (afterDraw p x y n s).fb px py = pixel s.fb px py) :=
  pixel_composite p s.fb s.mem s.i.toNat _ _ (by omega) px py

/-- The collision bit: some pixel hit was set. -/
theorem drawn_collision (p : Config.EdgePolicy) (x y : RegIdx) (n : Fin 16) (s : State) :
    (drawn p x y n s).2 = true ↔ ∃ px py, SpriteHits p x y n s px py ∧ pixel s.fb px py = true :=
  composite_collision p s.fb s.mem s.i.toNat _ _ (by omega)

theorem regAfter_afterDraw (p : Config.EdgePolicy) (x y : RegIdx) (n : Fin 16) (s : State) :
    RegAfter s (afterDraw p x y n s) flagReg (flagByte (drawn p x y n s).2) := by
  intro r
  rw [afterDraw, reg_advance, reg_setFlag, reg_present]

theorem onlyChanges_afterDraw (p : Config.EdgePolicy) (x y : RegIdx) (n : Fin 16) (s : State) :
    OnlyChanges [.fb, .v, .dirty, .pc] s (afterDraw p x y n s) :=
  ((onlyChanges_present s _).trans (onlyChanges_setFlag _ _)).advance.mono (by decide)

/-! ### One DRAW (R211 to R213) -/

theorem drawDoes_drawWith (p : Config.EdgePolicy) (x y : RegIdx) (n : Fin 16) (s : State) :
    DrawDoes p x y n s (drawWith p x y n s) := by
  refine ⟨fun hr => ?_, fun hn hend => ?_⟩
  · refine ⟨_, drawWith_of_inRange (by unfold memSize; omega), pixel_afterDraw p x y n s, fun hset => ?_,
      fun hclear => ?_, rfl, rfl, onlyChanges_afterDraw p x y n s⟩
    · have hreg := regAfter_afterDraw p x y n s
      rwa [(drawn_collision p x y n s).2 hset] at hreg
    · have hnone : (drawn p x y n s).2 = false := by
        rw [Bool.eq_false_iff, Ne, drawn_collision]
        rintro ⟨px, py, hhit, hpx⟩
        rw [hclear px py hhit] at hpx
        cases hpx
      have hreg := regAfter_afterDraw p x y n s
      rwa [hnone] at hreg
  · exact aborts_withRange_indexAddr hn (by omega) _

/-- Settles O34: the instruction is `drawWith` under the policy taken. -/
theorem drawResult : Obligations.DrawResult := fun x y n s =>
  ⟨decode_encodeXYN_draw x y n, fun p => drawDoes_drawWith p x y n s, drawDoes_drawWith _ x y n s⟩

/-! ### Two DRAWs (R214) -/

theorem flagByte_eq_one_iff (b : Bool) : flagByte b = 1 ↔ b = true := by
  cases b <;> decide

theorem reg_afterDraw_flagReg_eq_one_iff : reg (afterDraw p x y n s) flagReg = 1 ↔
    ∃ px py, SpriteHits p x y n s px py ∧ pixel s.fb px py = true := by
  rw [regAfter_afterDraw, if_pos rfl, flagByte_eq_one_iff, drawn_collision]

/-- With the position registers as they were, the sprite lands where it landed: a DRAW writes neither memory nor `I`. -/
theorem spriteHits_afterDraw (hx : reg (afterDraw p x y n s) x = reg s x) (hy : reg (afterDraw p x y n s) y = reg s y) :
    SpriteHits p x y n (afterDraw p x y n s) = SpriteHits p x y n s := by
  funext px py
  rw [SpriteHits, SpriteHits, hx, hy]
  rfl

/-- The set of pixels a framebuffer has on. -/
def setPixels (fb : Framebuffer) : Set Place := { q | pixel fb q.1 q.2 = true }

/-- The places a sprite's 1 bits land on. -/
def hitPlaces (p : Config.EdgePolicy) (x y : RegIdx) (n : Fin 16) (s : State) : Set Place :=
  { q | SpriteHits p x y n s q.1 q.2 }

/-- A DRAW is the symmetric difference of the pixels set and the places hit. -/
theorem setPixels_afterDraw (p : Config.EdgePolicy) (x y : RegIdx) (n : Fin 16) (s : State) :
    setPixels (afterDraw p x y n s).fb =
      (setPixels s.fb \ hitPlaces p x y n s) ∪ (hitPlaces p x y n s \ setPixels s.fb) := by
  ext ⟨px, py⟩
  obtain ⟨hhit, hmiss⟩ := pixel_afterDraw p x y n s px py
  simp only [setPixels, hitPlaces, Set.mem_union, Set.mem_sdiff, Set.mem_ofPred_eq]
  by_cases h : SpriteHits p x y n s px py
  · simp [hhit h, h]
  · simp [hmiss h, h]

/-- The size of a symmetric difference, over the naturals. -/
theorem ncard_diff_union_diff_add (A H : Set Place) :
    ((A \ H) ∪ (H \ A)).ncard + (H ∩ A).ncard = A.ncard + (H \ A).ncard := by
  have hunion : ((A \ H) ∪ (H \ A)).ncard = (A \ H).ncard + (H \ A).ncard :=
    Set.ncard_union_eq (disjoint_sdiff_sdiff) (Set.toFinite _) (Set.toFinite _)
  have hsplit : (A ∩ H).ncard + (A \ H).ncard = A.ncard := Set.ncard_inter_add_ncard_sdiff_eq_ncard A H (Set.toFinite A)
  rw [hunion, Set.inter_comm H A]
  omega

/-- The number of pixels set changes by the hits on clear pixels less those on set ones. -/
theorem ncard_setPixels_afterDraw (p : Config.EdgePolicy) (x y : RegIdx) (n : Fin 16) (s : State) :
    (setPixels (afterDraw p x y n s).fb).ncard + (hitPlaces p x y n s ∩ setPixels s.fb).ncard =
      (setPixels s.fb).ncard + (hitPlaces p x y n s \ setPixels s.fb).ncard := by
  rw [setPixels_afterDraw, ncard_diff_union_diff_add]

theorem hitPlaces_diff_setPixels (p : Config.EdgePolicy) (x y : RegIdx) (n : Fin 16) (s : State) :
    hitPlaces p x y n s \ setPixels s.fb =
      { q | SpriteHits p x y n s q.1 q.2 ∧ pixel s.fb q.1 q.2 = false } := by
  ext q
  simp [hitPlaces, setPixels]

/-- Toggling the same places twice gives back every pixel. -/
theorem pixel_afterDraw_afterDraw (hhits : SpriteHits p x y n (afterDraw p x y n s) = SpriteHits p x y n s)
    (px : Fin 64) (py : Fin 32) :
    pixel (afterDraw p x y n (afterDraw p x y n s)).fb px py = pixel s.fb px py := by
  obtain ⟨hhit, hmiss⟩ := pixel_afterDraw p x y n s px py
  obtain ⟨hhit', hmiss'⟩ := pixel_afterDraw p x y n (afterDraw p x y n s) px py
  rw [hhits] at hhit' hmiss'
  by_cases h : SpriteHits p x y n s px py
  · rw [hhit' h, hhit h, Bool.not_not]
  · rw [hmiss' h, hmiss h]

/-- The second DRAW collides exactly when the first landed on a clear pixel, which it set. -/
theorem reg_afterDraw_afterDraw_flagReg_eq_one_iff
    (hhits : SpriteHits p x y n (afterDraw p x y n s) = SpriteHits p x y n s) :
    reg (afterDraw p x y n (afterDraw p x y n s)) flagReg = 1 ↔
      ∃ px py, SpriteHits p x y n s px py ∧ pixel s.fb px py = false := by
  rw [reg_afterDraw_flagReg_eq_one_iff, hhits]
  refine exists_congr fun px => exists_congr fun py => and_congr_right fun h => ?_
  rw [(pixel_afterDraw p x y n s px py).1 h, Bool.not_eq_true']

/-- Settles O35: each draw is `afterDraw`, and with the registers as they were both land on the same places. -/
theorem drawTwiceRestores : Obligations.DrawTwiceRestores := by
  intro p x y n s t h hx hy
  obtain ⟨hr, rfl⟩ := drawWith_next_eq_afterDraw h
  have hhits := spriteHits_afterDraw hx hy
  have hcount := ncard_setPixels_afterDraw p x y n s
  rw [hitPlaces_diff_setPixels] at hcount
  exact ⟨reg_afterDraw_flagReg_eq_one_iff, hcount, _, drawWith_of_inRange hr, pixel_afterDraw_afterDraw hhits,
    reg_afterDraw_afterDraw_flagReg_eq_one_iff hhits⟩

end Sys2Proof
end

section
/-! Proofs about the host's operations (46_host_operations.md) that the sections above have left: the reset, the load
and the boot (R251, R252, R321), timers that run down and the sound event (R253, R258), and the dirty flag over any
operations (R31, R257). -/

namespace Sys2Proof

open Machine

variable {s t u : State} {i : Instr} {byte : Byte}

/-! ### The reset operation (R251, R35) -/

theorem perform_init (s : State) : perform .init s = (initCore s, .ok none) := rfl

theorem initCore_initCore (s : State) : initCore (initCore s) = initCore s := rfl

/-- Above the font, which ends at 0x50, the reset contents are 0. -/
theorem resetByte_eq_ite (a : Nat) : resetByte a = if a < 0x50 then font.getD a 0 else 0 := by
  split
  · rfl
  · next h => exact List.getD_eq_default _ _ (Nat.not_lt.1 h)

@[simp] theorem reg_reset (r : RegIdx) : reg State.reset r = 0 := by simp [reg, State.reset]

@[simp] theorem keyIsDown_reset (k : KeyIdx) : keyIsDown State.reset k = false := by simp [keyIsDown, State.reset]

theorem onlyChanges_initCore (s : State) : OnlyChanges [.randDraws] State.reset (initCore s) := by
  intro item hi
  cases item with
  | randDraws => simp at hi
  | mem | v | key => exact fun _ => rfl
  | fb => exact fun _ _ => rfl
  | _ => rfl

/-- Settles O39: the state left is the reset state but for the model's own count. -/
theorem initGivesResetState : Obligations.InitGivesResetState := by
  refine fun s => ⟨_, perform_init s, ?_, fun a _ => resetByte_eq_ite a, reg_reset, rfl, rfl, rfl, fun k => ?_, rfl,
    rfl, keyIsDown_reset, pixel_clearFb, rfl, rfl, onlyChanges_initCore s⟩
  · rw [perform_init, initCore_initCore]
  · exact Vector.getElem_replicate k.isLt

/-! ### `load_program` and the boot (R252, R321, R323) -/

/-- Settles O40: an image that fits is one run of bytes stored at 0x200, which ends inside memory. -/
theorem loadProgramResult : Obligations.LoadProgramResult := by
  refine fun bytes s => ⟨fun hwf hle => ?_, fun hgt => perform_loadProgram_of_gt hgt s⟩
  have hr : 0x200 + bytes.length ≤ 0x1000 := by omega
  exact ⟨_, perform_loadProgram_of_le hle s,
    fun k hk => byteAt_storeBytes_of_getElem? hwf hr (List.getElem?_eq_getElem hk),
    fun a ha => byteAt_storeBytes_outside hwf hr ha, onlyChanges_storeBytes s _ _⟩

theorem performAll_cons (op : HostOp) (ops : List HostOp) (s : State) :
    performAll (op :: ops) s =
      ((performAll ops (perform op s).1).1, (perform op s).2 :: (performAll ops (perform op s).1).2) := rfl

theorem performAll_init_loadProgram {bytes : List Byte} (h : bytes.length ≤ 3584) (s : State) :
    (performAll [.init, .loadProgram bytes] s).1 = storeBytes (initCore s) 0x200 bytes := by
  rw [performAll_cons, performAll_cons, perform_init, perform_loadProgram_of_le h]
  rfl

/-- Settles O41: after a reset memory is canonical, so the load leaves the image's first two bytes at `PC`. -/
theorem bootRunsFirstWord : Obligations.BootRunsFirstWord := by
  intro hi lo rest s hlen
  have hle : (hi :: lo :: rest).length ≤ 3584 := hlen
  rw [performAll_init_loadProgram hle]
  have hr : 0x200 + (hi :: lo :: rest).length ≤ 0x1000 := by omega
  have hwf : Memory.wf (initCore s).mem = true := rfl
  have hhi := byteAt_storeBytes_of_getElem? hwf hr (k := 0) rfl
  have hlo := byteAt_storeBytes_of_getElem? hwf hr (k := 1) rfl
  have hpc : (storeBytes (initCore s) 0x200 (hi :: lo :: rest)).pc = 0x200 := rfl
  refine ⟨hpc, ?_⟩
  rw [step_of_le (by rw [hpc]; decide), wordAt_eq_append, hpc]
  exact congrArg₂ (fun a b => exec (decode (a ++ b)) _) hhi hlo

/-! ### The timers run down (R253, R258) -/

theorem tickEvent_eq_soundEvent_iff : tickEvent s = some .soundEvent ↔ s.st = 1 := by
  unfold tickEvent
  split <;> simp_all

/-- The replies of `n` ticks hold one sound event if `ST` reaches 0 among them, and none otherwise. -/
theorem count_soundEvent_performAll_tickTimers (n : Nat) (s : State) :
    (performAll (List.replicate n .tickTimers) s).2.count (.ok (some .soundEvent)) =
      if 0 < s.st.toNat ∧ s.st.toNat ≤ n then 1 else 0 := by
  induction n generalizing s with
  | zero => rw [if_neg (by omega)]; rfl
  | succ n ih =>
    have hone : s.st = 1 ↔ s.st.toNat = 1 := by rw [← BitVec.toNat_inj]; rfl
    rw [List.replicate_succ, performAll_cons, perform_tickTimers, List.count_cons, ih, tickTimers_st, toNat_tickDown]
    simp only [beq_iff_eq, Reply.ok.injEq, tickEvent_eq_soundEvent_iff, hone]
    split_ifs <;> omega

/-- The state after `n` ticks: each timer `n` less and not below 0, nothing else changed. -/
theorem performAll_tickTimers (n : Nat) (s : State) :
    (performAll (List.replicate n .tickTimers) s).1.dt.toNat = s.dt.toNat - n ∧
      (performAll (List.replicate n .tickTimers) s).1.st.toNat = s.st.toNat - n ∧
      OnlyChanges [.dt, .st] s (performAll (List.replicate n .tickTimers) s).1 := by
  induction n generalizing s with
  | zero => exact ⟨rfl, rfl, onlyChanges_refl _ s⟩
  | succ n ih =>
    rw [List.replicate_succ, performAll_cons, perform_tickTimers]
    obtain ⟨hdt, hst, hframe⟩ := ih (tickTimers s)
    rw [tickTimers_dt, toNat_tickDown] at hdt
    rw [tickTimers_st, toNat_tickDown] at hst
    exact ⟨hdt.trans (by omega), hst.trans (by omega), ((onlyChanges_tickTimers s).trans hframe).mono (by decide)⟩

/-- Settles O43: by induction on the ticks, for the state and for the replies. -/
theorem timersRunDown : Obligations.TimersRunDown := by
  intro n s
  obtain ⟨hdt, hst, hframe⟩ := performAll_tickTimers n s
  exact ⟨hdt, hst, count_soundEvent_performAll_tickTimers n s, hframe⟩

/-! ### The sound event (R258, D19) -/

theorem instrEvent_ne_soundEvent (i : Instr) : instrEvent i ≠ some .soundEvent := by
  cases i with
  | _ => nofun

theorem stepEvent_ne_soundEvent (s : State) : stepEvent s ≠ some .soundEvent := by
  unfold stepEvent
  split
  · decide
  · exact instrEvent_ne_soundEvent _

/-- Settles O44: a step reports an unknown word at most, a tick the event when `ST` is 1, the others no event. -/
theorem soundEventOnlyFromTick : Obligations.SoundEventOnlyFromTick := by
  intro op s
  cases op with
  | tickTimers => simp [perform_tickTimers, tickEvent_eq_soundEvent_iff]
  | step byte =>
    rcases stepWith_next_or_fault byte s with ⟨t, ht⟩ | ⟨f, hf⟩
    · simp [perform_step_of_next ht, stepEvent_ne_soundEvent]
    · simp [perform_step_of_fault hf]
  | loadProgram bytes =>
    rcases Nat.lt_or_ge 3584 bytes.length with hgt | hle
    · simp [perform_loadProgram_of_gt hgt]
    · simp [perform_loadProgram_of_le hle]
  | _ => simp [perform]

/-! ### The dirty flag (R31, R257) -/

theorem onlyChanges_clearDirty (s : State) : OnlyChanges [.dirty] s (clearDirty s) := by
  intro item hi
  cases item with
  | dirty => simp at hi
  | _ => simp [SameItem]

theorem perform_consumeDirtyFlag (s : State) : perform .consumeDirtyFlag s = (clearDirty s, .flag s.dirty) := rfl

/-- Settles O47: the operation is `clearDirty`, with the flag as it was in the reply. -/
theorem consumeDirtyFlagResult : Obligations.ConsumeDirtyFlagResult := fun s =>
  ⟨_, perform_consumeDirtyFlag s, rfl, onlyChanges_clearDirty s⟩

/-- From `s` to `t` no change of the display is missed: `DIRTY` is set, or it and the pixels are as they were. -/
def NoChangeMissed (s t : State) : Prop :=
  t.dirty = true ∨ (t.dirty = s.dirty ∧ ∀ x y, pixel t.fb x y = pixel s.fb x y)

theorem NoChangeMissed.trans (h : NoChangeMissed s t) (h' : NoChangeMissed t u) : NoChangeMissed s u := by
  rcases h' with hset | ⟨hdirty', hfb'⟩
  · exact .inl hset
  · rcases h with hset | ⟨hdirty, hfb⟩
    · exact .inl (hdirty'.trans hset)
    · exact .inr ⟨hdirty'.trans hdirty, fun x y => (hfb' x y).trans (hfb x y)⟩

theorem noChangeMissed_of_eq (hdirty : t.dirty = s.dirty) (hfb : t.fb = s.fb) : NoChangeMissed s t :=
  .inr ⟨hdirty, fun x y => by rw [hfb]⟩

/-- CLEAR and DRAW set `DIRTY`, the flag and the pixels are written by no other kind. -/
theorem exec_noChangeMissed (h : exec i s = .next t) : NoChangeMissed s t := by
  by_cases hk : i.kind ∈ writers .fb
  · cases i with
    | clear =>
      obtain rfl := Host.Outcome.next.inj h
      exact .inl rfl
    | draw x y n =>
      obtain ⟨-, fb, c, rfl⟩ := drawWith_next h
      exact .inl rfl
    | _ => simp [writers, Instr.kind] at hk
  · exact .inr ⟨sameItem_of_notMem_writers h (item := .dirty) (by decide) hk,
      sameItem_of_notMem_writers h (item := .fb) (by decide) hk⟩

theorem stepWith_noChangeMissed (h : stepWith byte s = .next t) : NoChangeMissed s t := by
  rcases execWith_next (stepWith_next h).2 with hexec | ⟨x, nn, -, rfl⟩
  · exact exec_noChangeMissed hexec
  · exact noChangeMissed_of_eq rfl rfl

theorem perform_noChangeMissed {op : HostOp} (hinit : op ≠ .init) (hconsume : op ≠ .consumeDirtyFlag) (s : State) :
    NoChangeMissed s (perform op s).1 := by
  cases op with
  | init => exact absurd rfl hinit
  | consumeDirtyFlag => exact absurd rfl hconsume
  | step byte =>
    rcases stepWith_next_or_fault byte s with ⟨t, ht⟩ | ⟨f, hf⟩
    · rw [perform_step_of_next ht]
      exact stepWith_noChangeMissed ht
    · rw [perform_step_of_fault hf]
      exact noChangeMissed_of_eq rfl rfl
  | loadProgram bytes =>
    rcases Nat.lt_or_ge 3584 bytes.length with hgt | hle
    · rw [perform_loadProgram_of_gt hgt]
      exact noChangeMissed_of_eq rfl rfl
    · rw [perform_loadProgram_of_le hle]
      exact noChangeMissed_of_eq rfl rfl
  | tickTimers | keyDown k | keyUp k | framebuffer => exact noChangeMissed_of_eq rfl rfl

/-- Settles O48: each operation misses no change, and so does a sequence of them. -/
theorem displayChangeSetsDirty : Obligations.DisplayChangeSetsDirty := by
  intro ops s hinit hconsume
  refine performAll_keeps (P := NoChangeMissed s) (fun op hop t ht => ?_) (noChangeMissed_of_eq rfl rfl)
  exact ht.trans (perform_noChangeMissed (ne_of_mem_of_not_mem hop hinit) (ne_of_mem_of_not_mem hop hconsume) t)

end Sys2Proof
end

section
/-! Proofs of the rules about the whole machine (10_state.md): the invariant of R37 over steps and operations, who
writes each item of state (R34), the flag (R23), that `ST` and `DIRTY` are never read (R28, R31), and what holds in every state
the operations reach. -/

namespace Sys2Proof

open Machine

variable {s t : State} {i : Instr} {byte : Byte}

/-! ### Who writes each item (R34) and the flag (R23) -/

/-- Settles O49: each clause is the table of `writers` at one item; the registers are `exec_reg_changes`. -/
theorem itemsWrittenOnlyByTheirKinds : Obligations.ItemsWrittenOnlyByTheirKinds := by
  intro i s t h
  have hwriter : ∀ item, item ≠ .pc → ¬SameItem item s t → i.kind ∈ writers item :=
    fun item hpc => mem_writers_of_not_sameItem h hpc
  exact ⟨hwriter .mem (by decide), hwriter .i (by decide),
    fun hne => List.mem_singleton.1 (hwriter .stack (by decide) hne), hwriter .sp (by decide),
    fun hne => List.mem_singleton.1 (hwriter .dt (by decide) hne),
    fun hne => List.mem_singleton.1 (hwriter .st (by decide) hne),
    fun hne => .inl (List.mem_singleton.1 (hwriter .key (by decide) hne)),
    hwriter .fb (by decide), hwriter .dirty (by decide), fun r => exec_reg_changes h⟩

/-- No flag kind, `X` not `VF`: then `VF` could only change in a LOAD_REGS up to `VF`, whose `X` is `VF`. -/
theorem exec_keeps_flagReg (h : exec i s = .next t) (hk : i.kind ∉ flagKinds) (hx : fieldX i ≠ some flagReg) :
    reg t flagReg = reg s flagReg := by
  by_contra hne
  rcases exec_reg_changes h hne with ⟨hfield, -⟩ | ⟨-, hflag⟩ | ⟨x, rfl, hle⟩
  · exact hx hfield
  · exact hk hflag
  · obtain rfl : x = flagReg := le_antisymm (Fin.le_last x) hle
    exact hx rfl

/-- Settles O50: the flag kinds write `VF` last, and no other kind writes it but through `X`. -/
theorem flagWrittenOnlyByFlagKinds : Obligations.FlagWrittenOnlyByFlagKinds :=
  ⟨fun _ _ _ h => ⟨exec_flag h, exec_keeps_flagReg h⟩, by decide, by decide⟩

/-! ### `ST` and `DIRTY` are never read (R28, R31) -/

/-- A state with another `ST` and `DIRTY`. -/
def withStDirty (s : State) (b : Byte) (d : Bool) : State := { s with st := b, dirty := d }

theorem onlyChanges_withStDirty (s : State) (b : Byte) (d : Bool) :
    OnlyChanges [.st, .dirty] s (withStDirty s b d) := by
  intro item hi
  cases item with
  | st | dirty => simp at hi
  | mem | v | key => exact fun _ => rfl
  | fb => exact fun _ _ => rfl
  | _ => rfl

theorem raises_withStDirty (i : Instr) (s : State) (b : Byte) (d : Bool) (f : Fault) :
    Raises i (withStDirty s b d) f ↔ Raises i s f := by
  cases i with
  | _ => rfl

theorem skipIf_withStDirty (c : Bool) (s : State) (b : Byte) (d : Bool) :
    skipIf c (withStDirty s b d) = withStDirty (skipIf c s) b d := by
  cases c with
  | _ => rfl

theorem skipOnKey_withStDirty {level : Bool} {x : RegIdx} (h : skipOnKey keySkipConsumes level x s = .next t) (b : Byte)
    (d : Bool) : skipOnKey keySkipConsumes level x (withStDirty s b d) = .next (withStDirty t b d) := by
  obtain ⟨k, hk, rfl⟩ := skipOnKey_next h
  exact (skipOnKey_of_some (s := withStDirty s b d) (keyIndex?_eq_some hk)).trans
    (congrArg _ (skipIf_withStDirty _ s b d))

/-- An instruction on a state with another `ST` and `DIRTY` gives the same state with these as it wrote them, or as they
were. -/
theorem exec_withStDirty (h : exec i s = .next t) (b : Byte) (d : Bool) :
    exec i (withStDirty s b d) = .next (withStDirty t (if i.kind = .setSound then t.st else b)
      (if i.kind ∈ [.clear, .draw] then true else d)) := by
  cases i with
  | ret =>
    obtain ⟨hlt, hpos, rfl⟩ := execRet_next h
    exact exec_ret_of_pos (s := withStDirty s b d) hpos hlt
  | call nnn =>
    obtain ⟨hlt, rfl⟩ := execCall_next h
    exact exec_call_of_lt (s := withStDirty s b d) nnn hlt
  | skipEqImm x nn | skipNeqImm x nn | skipEqReg x y | skipNeqReg x y =>
    obtain rfl := Host.Outcome.next.inj h
    exact congrArg _ (skipIf_withStDirty _ s b d)
  | skipKeyDown x | skipKeyUp x => exact skipOnKey_withStDirty h b d
  | draw x y n | storeBcd x | dumpRegs x | loadRegs x =>
    obtain ⟨hr, ht⟩ := withRange_next h
    obtain rfl := Host.Outcome.next.inj ht
    exact withRange_of_inRange hr _
  | waitKey x =>
    rcases waitKeyWith_next h with ⟨hk, rfl⟩ | ⟨k, hk, rfl⟩
    · exact waitKeyWith_of_none (s := withStDirty t b d) hk x
    · exact waitKeyWith_of_some (s := withStDirty s b d) hk x
  | _ =>
    obtain rfl := Host.Outcome.next.inj h
    rfl

/-- Settles O51: `Raises` reads neither, and what is left unwritten of the two is what it was. -/
theorem soundTimerAndDirtyAreNeverRead : Obligations.SoundTimerAndDirtyAreNeverRead := by
  refine fun i s b d => ⟨fun f => ?_, fun t h => ⟨_, exec_withStDirty h b d, onlyChanges_withStDirty t _ _, rfl, rfl⟩⟩
  exact exec_eq_fault_iff_raises.trans
    ((raises_withStDirty i s b d f).symm.trans (exec_eq_fault_iff_raises (s := withStDirty s b d)).symm)

/-! ### The bound on `PC` (R37) -/

theorem toNat_advance_pc_le (h : s.pc.toNat ≤ 0xFFE) : (advance s).pc.toNat ≤ 0x1000 := by
  rw [advance_pc]
  bv_omega

theorem toNat_skipIf_pc_le (h : s.pc.toNat ≤ 0xFFE) (c : Bool) : (skipIf c s).pc.toNat ≤ 0x1002 := by
  rw [skipIf_pc]
  split <;> bv_omega

/-- Where `PC` can be after an instruction fetched in range: at an address of 12 bits, at an address plus a byte, at
most four on, or at an entry of the stack. -/
theorem exec_pc_le (hinv : StateInv s) (hpc : s.pc.toNat ≤ 0xFFE) (h : exec i s = .next t) : t.pc.toNat ≤ 0x10FE := by
  have hadvance : ∀ u : State, u.pc = s.pc → (advance u).pc.toNat ≤ 0x10FE := fun u hu =>
    (toNat_advance_pc_le (hu ▸ hpc)).trans (by decide)
  cases i with
  | ret =>
    obtain ⟨hlt, hpos, rfl⟩ := execRet_next h
    exact (hinv.stack ⟨s.sp.val - 1, hlt⟩ (Nat.sub_lt hpos one_pos)).trans (by decide)
  | jump nnn =>
    obtain rfl := Host.Outcome.next.inj h
    rw [jumpTo_pc, toNat_immAddr]
    omega
  | call nnn =>
    obtain ⟨_, rfl⟩ := execCall_next h
    rw [jumpTo_pc, toNat_immAddr]
    omega
  | jumpOffset nnn =>
    obtain rfl := Host.Outcome.next.inj h
    exact toNat_offsetTarget_le s nnn
  | skipEqImm x nn | skipNeqImm x nn | skipEqReg x y | skipNeqReg x y =>
    obtain rfl := Host.Outcome.next.inj h
    exact (toNat_skipIf_pc_le hpc _).trans (by decide)
  | skipKeyDown x | skipKeyUp x =>
    obtain ⟨c, rfl⟩ := skipOnKey_keySkipConsumes_next h
    exact (toNat_skipIf_pc_le hpc c).trans (by decide)
  | draw x y n =>
    obtain ⟨-, fb, c, rfl⟩ := drawWith_next h
    exact hadvance _ rfl
  | waitKey x =>
    rcases waitKeyWith_next h with ⟨-, rfl⟩ | ⟨k, -, rfl⟩
    · exact hinv.pc
    · exact hadvance _ rfl
  | storeBcd x =>
    obtain ⟨-, rfl⟩ := execStoreBcd_next h
    exact hadvance _ rfl
  | dumpRegs x =>
    obtain ⟨-, rfl⟩ := execDumpRegs_next h
    exact hadvance _ rfl
  | loadRegs x =>
    obtain ⟨-, rfl⟩ := execLoadRegs_next h
    exact hadvance _ (by rw [bumpIndex_pc, loadRegsFrom_pc])
  | _ =>
    obtain rfl := Host.Outcome.next.inj h
    exact hadvance _ rfl

/-! ### The bound on the stack entries in use (R37) -/

/-- Every entry in use is at most 0x1000. -/
def StackBounded (s : State) : Prop := ∀ k : Fin 16, k.val < s.sp.val → (s.stack[k.val]).toNat ≤ 0x1000

theorem stackBounded_congr (hstack : t.stack = s.stack) (hsp : t.sp.val ≤ s.sp.val) (h : StackBounded s) :
    StackBounded t := by
  intro k hk
  rw [hstack]
  exact h k (hk.trans_le hsp)

/-- A push of an address at most 0x1000 keeps the bound. -/
theorem stackBounded_pushEntry (h : StackBounded s) {w : Word} (hw : w.toNat ≤ 0x1000) (hlt : s.sp.val < 16) :
    StackBounded (pushEntry s w hlt) := by
  intro k hk
  rw [getElem_stack_pushEntry]
  split
  · exact hw
  · next hne => exact h k (lt_of_le_of_ne (Nat.le_of_lt_succ hk) hne)

/-- CALL pushes the address after itself, at most 0x1000; RETURN uses one entry less; no other kind writes the stack. -/
theorem exec_stackBounded (hs : StackBounded s) (hpc : s.pc.toNat ≤ 0xFFE) (h : exec i s = .next t) :
    StackBounded t := by
  by_cases hk : i.kind ∈ writers .sp
  · cases i with
    | call nnn =>
      obtain ⟨hlt, rfl⟩ := execCall_next h
      exact stackBounded_pushEntry hs (toNat_advance_pc_le hpc) hlt
    | ret =>
      obtain ⟨_, _, rfl⟩ := execRet_next h
      exact stackBounded_congr (s := s) rfl (Nat.sub_le _ _) hs
    | _ => simp [writers, Instr.kind] at hk
  · have hsp : t.sp = s.sp := sameItem_of_notMem_writers h (item := .sp) (by decide) hk
    have hstack : t.stack = s.stack := sameItem_of_notMem_writers h (item := .stack) (by decide)
      fun hcall => hk (List.mem_cons.2 (.inl (List.mem_singleton.1 hcall)))
    exact stackBounded_congr hstack hsp.le hs

/-! ### The invariant (R37) -/

theorem exec_keeps_stateInv (hinv : StateInv s) (hpc : s.pc.toNat ≤ 0xFFE) (h : exec i s = .next t) : StateInv t :=
  ⟨exec_wf hinv.mem h, exec_pc_le hinv hpc h, exec_stackBounded hinv.stack hpc h⟩

/-- Settles O52: no byte is listed, `PC` is 0x200 and no entry is in use. -/
theorem resetMeetsInvariant : Obligations.ResetMeetsInvariant where
  mem := rfl
  pc := by decide
  stack := fun k hk => absurd hk (Nat.not_lt_zero k.val)

/-- Settles O53: a step fetched in range, and the instruction it ran keeps each part of the invariant. -/
theorem stepKeepsInvariant : Obligations.StepKeepsInvariant := by
  intro s t hinv h
  obtain ⟨hpc, hexec⟩ := step_next h
  exact exec_keeps_stateInv hinv hpc hexec

/-- A state with the memory, the stack and a bounded `PC` of one that meets the invariant meets it. -/
theorem stateInv_congr (hinv : StateInv s) (hmem : t.mem = s.mem) (hstack : t.stack = s.stack) (hsp : t.sp = s.sp)
    (hpc : t.pc.toNat ≤ 0x10FE) : StateInv t :=
  ⟨hmem ▸ hinv.mem, hpc, stackBounded_congr hstack hsp.le hinv.stack⟩

theorem stepWith_keeps_stateInv (hinv : StateInv s) (h : stepWith byte s = .next t) : StateInv t := by
  obtain ⟨hpc, hexec⟩ := stepWith_next h
  rcases execWith_next hexec with hexec | ⟨x, nn, -, rfl⟩
  · exact exec_keeps_stateInv hinv hpc hexec
  · exact stateInv_congr hinv rfl rfl rfl ((toNat_advance_pc_le hpc).trans (by decide))

/-- Settles O54: a step by `stepWith_keeps_stateInv`; a load writes memory inside 0x200 to 0xFFF; a reset gives the
reset values; the other operations write no item of the invariant. -/
theorem operationsKeepInvariant : Obligations.OperationsKeepInvariant := by
  intro op s hinv
  cases op with
  | init => exact stateInv_congr resetMeetsInvariant rfl rfl rfl resetMeetsInvariant.pc
  | loadProgram bytes =>
    rcases Nat.lt_or_ge 3584 bytes.length with hgt | hle
    · rwa [perform_loadProgram_of_gt hgt]
    · rw [perform_loadProgram_of_le hle]
      exact ⟨wf_storeBytes hinv.mem (show 0x200 + bytes.length ≤ 0x1000 by omega), hinv.pc, hinv.stack⟩
  | step byte =>
    rcases stepWith_next_or_fault byte s with ⟨t, ht⟩ | ⟨f, hf⟩
    · rw [perform_step_of_next ht]
      exact stepWith_keeps_stateInv hinv ht
    · rwa [perform_step_of_fault hf]
  | tickTimers | keyDown k | keyUp k | framebuffer | consumeDirtyFlag =>
    exact stateInv_congr hinv rfl rfl rfl hinv.pc

/-! ### Every reachable state (R37) -/

theorem Machine.Reachable.stateInv (h : Reachable s) : StateInv s := by
  induction h with
  | reset => exact resetMeetsInvariant
  | perform op _ ih => exact operationsKeepInvariant op _ ih
  | step _ hstep ih => exact stepKeepsInvariant _ _ ih hstep

/-- Only the two kinds that store change memory, with the host's byte too. -/
theorem execWith_mem_eq_of_notMem_writers (h : execWith byte i s = .next t) (hk : i.kind ∉ writers .mem) (a : Nat) :
    byteAt t.mem a = byteAt s.mem a := by
  rcases execWith_next h with hexec | ⟨x, nn, -, rfl⟩
  · exact sameItem_of_notMem_writers (item := .mem) hexec (by decide) hk a
  · rfl

/-- An operation that changes the font is a step of a kind that stores: a reset lays the font down, a load lies above
it. -/
theorem perform_changes_font {op : HostOp} (hwf : Memory.wf s.mem = true)
    (hfont : ∀ a < 0x50, byteAt s.mem a = font.getD a 0) {a : Nat} (ha : a < 0x50)
    (hne : byteAt (perform op s).1.mem a ≠ font.getD a 0) :
    ∃ byte w, op = .step byte ∧ fetch s = .ok w ∧ (decode w).kind ∈ writers .mem := by
  cases op with
  | init => exact absurd rfl hne
  | loadProgram bytes =>
    rcases Nat.lt_or_ge 3584 bytes.length with hgt | hle
    · rw [perform_loadProgram_of_gt hgt] at hne
      exact absurd (hfont a ha) hne
    · rw [perform_loadProgram_of_le hle, byteAt_storeBytes_outside hwf (by omega) (by omega)] at hne
      exact absurd (hfont a ha) hne
  | step byte =>
    rcases stepWith_next_or_fault byte s with ⟨t, ht⟩ | ⟨f, hf⟩
    · rw [perform_step_of_next ht, ← hfont a ha] at hne
      obtain ⟨hpc, hexec⟩ := stepWith_next ht
      exact ⟨byte, _, rfl, fetch_of_le hpc, by_contra fun hk => hne (execWith_mem_eq_of_notMem_writers hexec hk a)⟩
    · rw [perform_step_of_fault hf] at hne
      exact absurd (hfont a ha) hne
  | tickTimers | keyDown k | keyUp k | framebuffer | consumeDirtyFlag => exact absurd (hfont a ha) hne

/-- Settles O55: the bounds are the invariant, at every reachable state, and the widths of the items. -/
theorem reachableStatesMeetInvariant : Obligations.ReachableStatesMeetInvariant := by
  refine ⟨fun s hs => ?_, fun i s t h => exec_flag h, fun op s hs hfont ⟨a, ha, hne⟩ => ?_⟩
  · exact ⟨Nat.le_of_lt_succ s.sp.isLt, hs.stateInv.pc, hs.stateInv.stack, Nat.le_of_lt_succ s.dt.isLt,
      Nat.le_of_lt_succ s.st.isLt, fun r => Nat.le_of_lt_succ (reg s r).isLt, hs.stateInv.mem⟩
  · exact perform_changes_font hs.stateInv.mem hfont ha hne

end Sys2Proof
end
